-- ==== Sys2Proof/Word.lean ====
section
/-! DEFINITION. The units of data: the byte, the byte sequence and the 16-bit field (`00_scope.md` rule R8, `40_codec.md` rule R109). -/

namespace Sys2Proof

/-- The unit of every store and of the wire: an unsigned 8-bit value (R8, R50). -/
abbrev Byte := BitVec 8

/-- A byte sequence; index 0 is the first byte on the wire (R8, R54). -/
abbrev Bytes := List Byte

/-- A 16-bit field of a frame: PaNo, FrNo or the length (R53, R109). -/
abbrev Half := BitVec 16

end Sys2Proof
end

