-- ==== Sys2Proof/Config.lean ====
section
/-! DEFINITION. What is fixed for one machine: the hardwired constants (`00_scope.md` rule R7) and the parameters the
spec leaves open (`00_scope.md` rule R6). The spec leaves no value undefined, so there is no opaque constant
(notes/assumptions/15.md). -/

namespace Sys2Proof

namespace Config

/-- `STX`, the start-of-frame delimiter (R7). -/
def stx : Byte := 0x02#8

/-- `ETX`, the end-of-frame delimiter (R7). -/
def etx : Byte := 0x03#8

/-- `VERSION`, the second byte of every frame COMPOSE builds (R7). -/
def version : Byte := 0x01#8

/-- `ACK`, the payload of an ACK frame (R7, R78). -/
def ack : Byte := 0x06#8

/-- `MIN_FRAME`, the least length at which an ETX closes a candidate (R7, R76). -/
def minFrame : Nat := 10

/-- `HDR_LEN`, the offset of the first data byte (R7). -/
def hdrLen : Nat := 8

/-- `MAX_DATA`, the most data bytes the length field can count (R7). -/
def maxData : Nat := 65535

/-- `MAX_FRAME`, the length of the longest frame (R7). -/
def maxFrame : Nat := 65545

end Config

/-- The size of a store: a natural number of bytes, or `∞` (R6). -/
inductive Capacity where
  /-- `∞`, the source's unbounded store. -/
  | unbounded
  /-- At most `n` bytes. -/
  | atMost (n : Nat)
  deriving DecidableEq, Repr

/-- The parameters of R6 that a model takes as arguments. DESIGN CHOICE (notes/assumptions/2.md): they
travel in the state, where no operation writes them, so that every statement about all states is
about all parameters. `PIN_BINDING` is not modelled. -/
structure Params where
  /-- `BUF_DEPTH`: a natural number ≥ 1, or `∞`. -/
  bufDepth : Capacity
  /-- `CAND_MAX`: a natural number ≥ 10, or `∞`. -/
  candMax : Capacity
  /-- `ETX_IN_DATA_FAULTS`: whether COMPOSE refuses a byte `0x03` in its data. -/
  etxInDataFaults : Bool
  deriving DecidableEq, Repr

/-- The parameters the test vectors use unless they say otherwise (`95_test_vectors.md`): `BUF_DEPTH = ∞` and the
two values R6 recommends. DESIGN CHOICE (notes/assumptions/2.md). -/
def Params.recommended : Params where
  bufDepth := .unbounded
  candMax := .atMost Config.maxFrame
  etxInDataFaults := true

end Sys2Proof
end

