-- ==== Sys2Proof/Syntax.lean ====
section
/-! DEFINITION. The operations of the block, one constructor for each row of spec/opcode_table.json, and the
small types an operation's encoding is made of. -/

namespace Sys2Proof

/-- The boundary detector's mode (R22). -/
inductive Mode where
  /-- "Idle/seeking (no STX seen yet)": no candidate is open. -/
  | idle
  /-- "Accumulating": a candidate is open and its first byte is STX. -/
  | acc
  deriving DecidableEq, Repr

/-- The class of one received byte (R74). -/
inductive SymbolClass where
  | stx
  | etx
  | other
  deriving DecidableEq, Repr

/-- The four formats of spec/opcode_table.json. -/
inductive Format where
  /-- The stream symbol: the byte at the head of `buf`, which the detector classifies (R74). -/
  | sym8
  /-- The ingress byte (R130). -/
  | byte8
  /-- The host's 4-bit select code (R81). -/
  | cmd4
  /-- The bytes of a wire frame (R70). -/
  | frame
  deriving DecidableEq, Repr

/-- The operations, in the table's order. A STEP case whose row matches many bytes carries the byte that was
matched. The operands of a host operation are byte sequences of any length (R26, R101, R103, R105); a field of a
frame pattern has its own width (R70, R78). -/
inductive Instr where
  /-- STEP.IDLE.STX (R135). -/
  | stepIdleStx
  /-- STEP.IDLE.ETX (R134). -/
  | stepIdleEtx
  /-- STEP.IDLE.OTHER (R133), on the symbol `b`. -/
  | stepIdleOther (b : Byte)
  /-- STEP.ACC.STX (R136). -/
  | stepAccStx
  /-- STEP.ACC.ETX (R138). -/
  | stepAccEtx
  /-- STEP.ACC.OTHER (R137), on the symbol `b`. -/
  | stepAccOther (b : Byte)
  /-- STEP.ACC.OVERRUN (R139), on the symbol `b`. -/
  | stepAccOverrun (b : Byte)
  /-- PUSH `b` (R130). -/
  | push (b : Byte)
  /-- CHECKSUM `bytes` [`extra`] (R101). -/
  | checksum (bytes : Bytes) (extra : Option Bytes)
  /-- COMPOSE `paNo` `frNo` `data` (R103). -/
  | compose (paNo frNo data : Bytes)
  /-- ISVALID `frame` (R105). -/
  | isvalid (frame : Bytes)
  /-- TAKE (R160). -/
  | take
  /-- STATUS (R161). -/
  | status
  /-- RESET (R162). -/
  | reset
  /-- CMD4.RESERVED: a select code without a meaning (R81). -/
  | cmd4Reserved (code : BitVec 4)
  /-- FRAME: the frame that carries `data` between `paNo` and `frNo` (R70). -/
  | frame (paNo frNo : Half) (data : Bytes)
  /-- ACKFRAME: the ACK frame for `frNo` (R78). -/
  | ackFrame (frNo : Half)
  /-- SYNCFRAME: the sync frame (R79). -/
  | syncFrame
  deriving DecidableEq, Repr

/-- The column `format` of the operation's row. -/
def Instr.format : Instr → Format
  | .stepIdleStx => .sym8
  | .stepIdleEtx => .sym8
  | .stepIdleOther _ => .sym8
  | .stepAccStx => .sym8
  | .stepAccEtx => .sym8
  | .stepAccOther _ => .sym8
  | .stepAccOverrun _ => .sym8
  | .push _ => .byte8
  | .checksum _ _ => .cmd4
  | .compose _ _ _ => .cmd4
  | .isvalid _ => .cmd4
  | .take => .cmd4
  | .status => .cmd4
  | .reset => .cmd4
  | .cmd4Reserved _ => .cmd4
  | .frame _ _ _ => .frame
  | .ackFrame _ => .frame
  | .syncFrame => .frame

end Sys2Proof
end

