-- ==== Sys2Proof/Machine/Operands.lean ====
section
/-! DEFINITION. Every operand form: the classes of a received byte (`30_encoding.md` rule R74), the halves of a
16-bit field (R53, R71), the exclusive-or fold (`40_codec.md` rule R100), the layout of a frame (R70), the
validator's test (R105) and the two predicates on byte sequences (R83, `70_reset_and_hazards.md` rule R223). -/

namespace Sys2Proof

/-- The class of a received byte, all eight bits significant (R74). -/
def classify (b : Byte) : SymbolClass :=
  if b = Config.stx then .stx else if b = Config.etx then .etx else .other

/-- `hi(n) = n div 256` (R8). -/
def hi (n : Nat) : Byte := BitVec.ofNat 8 (n / 256)

/-- `lo(n) = n mod 256` (R8). -/
def lo (n : Nat) : Byte := BitVec.ofNat 8 (n % 256)

/-- `be16(h, l) = 256*h + l` (R8, R53). -/
def be16 (h l : Byte) : Nat := 256 * h.toNat + l.toNat

/-- A 16-bit field from its two bytes, the more significant first (R53). -/
def joinHalf (h l : Byte) : Half := h ++ l

/-- The two bytes of a 16-bit field, the more significant first (R53, R71). -/
def halfBytes (x : Half) : Bytes := [x.extractLsb' 8 8, x.extractLsb' 0 8]

/-- The running exclusive-or of R110: `acc` with each byte of `s` folded in, in order. -/
def xorOnto (acc : Byte) (s : Bytes) : Byte := s.foldl (· ^^^ ·) acc

/-- `XorFold(s)` (R100): the fold started from `s[0]`. The spec gives `XorFold([])` no value, so it has none here. -/
def xorFold : Bytes → Option Byte
  | [] => none
  | b :: s => some (xorOnto b s)

/-- The layout of R70 after the STX and before the checksum: VERSION, the two addresses, the length, the data.
`paNo` and `frNo` are copied byte for byte (R103). -/
def frameBody (paNo frNo data : Bytes) : Bytes :=
  Config.version :: (paNo ++ frNo ++ [hi data.length, lo data.length] ++ data)

/-- The frame of R70 and R103: STX, the body, the fold of all of these, ETX. -/
def frameBytes (paNo frNo data : Bytes) : Bytes :=
  Config.stx :: (frameBody paNo frNo data ++ [xorOnto Config.stx (frameBody paNo frNo data), Config.etx])

/-- `SYNCFRAME`, the fixed literal of R79. -/
def syncBytes : Bytes :=
  [0x02#8, 0x01#8, 0x00#8, 0x01#8, 0x00#8, 0x01#8, 0x00#8, 0x00#8, 0x03#8, 0x03#8]

/-- The validator's test, ISVALID (R105): a checksum test and nothing more; the last byte is not read. -/
def validChecksum (f : Bytes) : Bool :=
  if f.length < 3 then false else xorFold (f.take (f.length - 2)) == f[f.length - 2]?

/-- `|s|` is below the capacity: one more byte fits (R130, R137 to R139). -/
def Capacity.hasRoom : Capacity → Nat → Bool
  | .unbounded, _ => true
  | .atMost n, k => decide (k < n)

/-- `|s|` equals the capacity; never for `∞` (R28, R139). -/
def Capacity.isReached : Capacity → Nat → Bool
  | .unbounded, _ => false
  | .atMost n, k => decide (k = n)

/-- `|s|` is within the capacity (R21, R23). -/
def Capacity.holds : Capacity → Nat → Bool
  | .unbounded, _ => true
  | .atMost n, k => decide (k ≤ n)

/-- The capacity is at least `k`. -/
def Capacity.atLeast : Capacity → Nat → Bool
  | .unbounded, _ => true
  | .atMost n, k => decide (k ≤ n)

/-- The types of R6: `BUF_DEPTH ≥ 1` and `CAND_MAX ≥ 10`. -/
def Params.legal (P : Params) : Bool := P.bufDepth.atLeast 1 && P.candMax.atLeast 10

/-- `WellFormed(f)` (R83), the document's Frame invariant. -/
def frameWellFormed (f : Bytes) : Bool :=
  decide (Config.minFrame ≤ f.length) && f[0]? == some Config.stx && f[1]? == some Config.version &&
    (match f[6]?, f[7]? with
      | some h, some l => be16 h l == f.length - 10
      | _, _ => false) &&
    f[f.length - 2]? == xorFold (f.take (f.length - 2)) && f[f.length - 1]? == some Config.etx

/-- `Receivable(f)` (R223), its five conditions; the same as `Emittable(f)` (R83) and as invariant 5 of R25. -/
def receivable (P : Params) (f : Bytes) : Bool :=
  decide (Config.minFrame ≤ f.length) && P.candMax.holds f.length && f[0]? == some Config.stx &&
    f[f.length - 1]? == some Config.etx && validChecksum f && !(f.drop 1).contains Config.stx &&
    !((f.take (f.length - 1)).drop 9).contains Config.etx

end Sys2Proof
end

