-- ==== Sys2Proof/WellFormed.lean ====
section
/-! DEFINITION. Which terms of `Instr` stand for words of their row: a default row's byte is one that no
exact row matches (`30_encoding.md` rules R74, R75), a reserved code is one of R81's, a frame's data can be counted
by its length field (R70) and the frame is not one that the more specific rows ACKFRAME and SYNCFRAME name. -/

namespace Sys2Proof

/-- The patterns of R78 and R79, which have rows of their own. -/
def hasOwnFrameRow (paNo frNo : Half) (data : Bytes) : Bool :=
  (paNo == 0x0000#16 && data == [Config.ack]) || (paNo == 0x0001#16 && frNo == 0x0001#16 && data == [])

/-- `0x0` and `0x7` to `0xF` (R81). -/
def isReservedCode (code : BitVec 4) : Bool := code == 0x0#4 || decide (7 ≤ code.toNat)

def Instr.wellFormed : Instr → Bool
  | .stepIdleStx => true
  | .stepIdleEtx => true
  | .stepIdleOther b => classify b == .other
  | .stepAccStx => true
  | .stepAccEtx => true
  | .stepAccOther b => classify b == .other
  | .stepAccOverrun b => classify b != .stx
  | .push _ => true
  | .checksum _ _ => true
  | .compose _ _ _ => true
  | .isvalid _ => true
  | .take => true
  | .status => true
  | .reset => true
  | .cmd4Reserved code => isReservedCode code
  | .frame paNo frNo data => decide (data.length ≤ Config.maxData) && !hasOwnFrameRow paNo frNo data
  | .ackFrame _ => true
  | .syncFrame => true

/-- The operation is a well-formed term of its row. -/
abbrev Instr.WellFormed (i : Instr) : Prop := i.wellFormed = true

end Sys2Proof
end

