-- ==== Sys2Proof/Decode.lean ====
section
/-! DEFINITION. The decoder, total on every encoding and rejecting by name, and after it the encoder, both from
`30_encoding.md`. -/

namespace Sys2Proof

/-- An operation as it reaches the block, on the channel its format belongs to. -/
inductive Encoded where
  /-- The detector's symbol, with what selects the row beside it (R75): the mode and whether the candidate
  already has `CAND_MAX` bytes. -/
  | sym8 (mode : Mode) (full : Bool) (symbol : Byte)
  /-- A received byte at the ingress (R130). -/
  | byte8 (b : Byte)
  /-- A host command: its select code and its operands, in the order R81 lists them.
  DESIGN CHOICE (notes/assumptions/6.md): an operand not supplied is the empty sequence. -/
  | cmd4 (code : BitVec 4) (operands : List Bytes)
  /-- The bytes of a frame (R70). -/
  | frame (bytes : Bytes)
  deriving DecidableEq, Repr

/-- Why an encoding is rejected. -/
inductive DecodeError where
  /-- A host command with more operands than its row has. -/
  | tooManyOperands
  /-- Fewer bytes than a header has. -/
  | frameWithoutHeader
  /-- Offset 0 is not STX. -/
  | frameWithoutStx
  /-- Offset 1 is not VERSION. -/
  | frameOfOtherVersion
  /-- The length field is not the number of data bytes. -/
  | frameLengthMismatch
  /-- The checksum byte is not the fold of the bytes before it. -/
  | frameChecksumMismatch
  /-- The last byte is not ETX. -/
  | frameWithoutEtx
  deriving DecidableEq, Repr

/-- The detector's row for a symbol (R74, R75): the exact row `0x02` first, then overrun, then `0x03`, then OTHER. -/
def decodeSymbol (mode : Mode) (full : Bool) (b : Byte) : Instr :=
  match mode, classify b with
  | .idle, .stx => .stepIdleStx
  | .idle, .etx => .stepIdleEtx
  | .idle, .other => .stepIdleOther b
  | .acc, .stx => .stepAccStx
  | .acc, .etx => if full then .stepAccOverrun b else .stepAccEtx
  | .acc, .other => if full then .stepAccOverrun b else .stepAccOther b

/-- The operand form of a command without operands. -/
def noOperands (operands : List Bytes) (i : Instr) : Except DecodeError Instr :=
  match operands with
  | [] => .ok i
  | _ :: _ => .error .tooManyOperands

def decodeChecksum (operands : List Bytes) : Except DecodeError Instr :=
  match operands with
  | [] => .ok (.checksum [] none)
  | [bytes] => .ok (.checksum bytes none)
  | [bytes, extra] => .ok (.checksum bytes (some extra))
  | _ => .error .tooManyOperands

def decodeCompose (operands : List Bytes) : Except DecodeError Instr :=
  match operands with
  | [] => .ok (.compose [] [] [])
  | [paNo] => .ok (.compose paNo [] [])
  | [paNo, frNo] => .ok (.compose paNo frNo [])
  | [paNo, frNo, data] => .ok (.compose paNo frNo data)
  | _ => .error .tooManyOperands

def decodeIsvalid (operands : List Bytes) : Except DecodeError Instr :=
  match operands with
  | [] => .ok (.isvalid [])
  | [frame] => .ok (.isvalid frame)
  | _ => .error .tooManyOperands

/-- The select codes of R81; the default row takes what no other row matches, whatever operands come with it. -/
def decodeCommand (code : BitVec 4) (operands : List Bytes) : Except DecodeError Instr :=
  match code.toNat with
  | 1 => decodeChecksum operands
  | 2 => decodeCompose operands
  | 3 => decodeIsvalid operands
  | 4 => noOperands operands .take
  | 5 => noOperands operands .status
  | 6 => noOperands operands .reset
  | _ => .ok (.cmd4Reserved code)

/-- The row that names a frame: SYNCFRAME and ACKFRAME before the general FRAME (R78, R79). -/
def nameFrame (paNo frNo : Half) (data : Bytes) : Instr :=
  if paNo = 0x0001#16 ∧ frNo = 0x0001#16 ∧ data = [] then .syncFrame
  else if paNo = 0x0000#16 ∧ data = [Config.ack] then .ackFrame frNo
  else .frame paNo frNo data

/-- A frame's fields by the layout of R70; the tests are those of `WellFormed(f)` (R83). -/
def decodeFrame (f : Bytes) : Except DecodeError Instr :=
  match f with
  | s :: v :: p0 :: p1 :: f0 :: f1 :: l0 :: l1 :: rest =>
    if s ≠ Config.stx then .error .frameWithoutStx
    else if v ≠ Config.version then .error .frameOfOtherVersion
    else
      match rest.drop (be16 l0 l1) with
      | [chk, e] =>
        if chk ≠ xorOnto s (v :: p0 :: p1 :: f0 :: f1 :: l0 :: l1 :: rest.take (be16 l0 l1)) then
          .error .frameChecksumMismatch
        else if e ≠ Config.etx then .error .frameWithoutEtx
        else .ok (nameFrame (joinHalf p0 p1) (joinHalf f0 f1) (rest.take (be16 l0 l1)))
      | _ => .error .frameLengthMismatch
  | _ => .error .frameWithoutHeader

/-- The decoder. -/
def decode : Encoded → Except DecodeError Instr
  | .sym8 mode full b => .ok (decodeSymbol mode full b)
  | .byte8 b => .ok (.push b)
  | .cmd4 code operands => decodeCommand code operands
  | .frame bytes => decodeFrame bytes

/-- The encoder, from the same tables. -/
def encode : Instr → Encoded
  | .stepIdleStx => .sym8 .idle false Config.stx
  | .stepIdleEtx => .sym8 .idle false Config.etx
  | .stepIdleOther b => .sym8 .idle false b
  | .stepAccStx => .sym8 .acc false Config.stx
  | .stepAccEtx => .sym8 .acc false Config.etx
  | .stepAccOther b => .sym8 .acc false b
  | .stepAccOverrun b => .sym8 .acc true b
  | .push b => .byte8 b
  | .checksum bytes none => .cmd4 0x1#4 [bytes]
  | .checksum bytes (some extra) => .cmd4 0x1#4 [bytes, extra]
  | .compose paNo frNo data => .cmd4 0x2#4 [paNo, frNo, data]
  | .isvalid frame => .cmd4 0x3#4 [frame]
  | .take => .cmd4 0x4#4 []
  | .status => .cmd4 0x5#4 []
  | .reset => .cmd4 0x6#4 []
  | .cmd4Reserved code => .cmd4 code []
  | .frame paNo frNo data => .frame (frameBytes (halfBytes paNo) (halfBytes frNo) data)
  | .ackFrame frNo => .frame (frameBytes [0x00#8, 0x00#8] (halfBytes frNo) [Config.ack])
  | .syncFrame => .frame syncBytes

/-- The format an encoding is in. -/
def Encoded.format : Encoded → Format
  | .sym8 _ _ _ => .sym8
  | .byte8 _ => .byte8
  | .cmd4 _ _ => .cmd4
  | .frame _ => .frame

/-- The byte a STEP case consumes (R132); other operations consume none. -/
def Instr.symbol : Instr → Option Byte
  | .stepIdleStx => some Config.stx
  | .stepIdleEtx => some Config.etx
  | .stepIdleOther b => some b
  | .stepAccStx => some Config.stx
  | .stepAccEtx => some Config.etx
  | .stepAccOther b => some b
  | .stepAccOverrun b => some b
  | .push _ => none
  | .checksum _ _ => none
  | .compose _ _ _ => none
  | .isvalid _ => none
  | .take => none
  | .status => none
  | .reset => none
  | .cmd4Reserved _ => none
  | .frame _ _ _ => none
  | .ackFrame _ => none
  | .syncFrame => none

/-- The byte an operation pushes, if it is PUSH. -/
def Instr.pushed : Instr → Bytes
  | .push b => [b]
  | .stepIdleStx => []
  | .stepIdleEtx => []
  | .stepIdleOther _ => []
  | .stepAccStx => []
  | .stepAccEtx => []
  | .stepAccOther _ => []
  | .stepAccOverrun _ => []
  | .checksum _ _ => []
  | .compose _ _ _ => []
  | .isvalid _ => []
  | .take => []
  | .status => []
  | .reset => []
  | .cmd4Reserved _ => []
  | .frame _ _ _ => []
  | .ackFrame _ => []
  | .syncFrame => []

/-- The low `n` bytes of a number, the first byte in its least significant bits. -/
def bytesOfNat : Nat → Nat → Bytes
  | 0, _ => []
  | n + 1, w => BitVec.ofNat 8 w :: bytesOfNat n (w / 256)

/-- A word of spec/opcode_table.json with the channel it is taken to be on. DESIGN CHOICE (notes/assumptions/8.md): the
bits alone do not say it, so a word of one byte is a select code with no operand supplied if its upper four
bits are zero and an ingress byte if they are not; a longer word is a frame. -/
def tableWord (nbits w : Nat) : Encoded :=
  if 8 < nbits then .frame (bytesOfNat ((nbits + 7) / 8) w)
  else if w < 16 then .cmd4 (BitVec.ofNat 4 w) []
  else .byte8 (BitVec.ofNat 8 w)

/-- What the decoder reads from a word of the table, numbered as the table numbers its bits. -/
def decodeTableWord (nbits w : Nat) : Option Instr :=
  match decode (tableWord nbits w) with
  | .ok i => some i
  | .error _ => none

end Sys2Proof
end

