-- ==== Sys2Proof/Machine/State.lean ====
section
/-! DEFINITION. The state: the block's own four stores (`10_state.md` rules R20 to R24), and beside them what comes
from outside and what goes out, which R33 keeps out of the block (notes/assumptions/1.md, 2.md, 4.md, 13.md). -/

namespace Sys2Proof.Machine

/-- The whole architectural state of the block (R20). -/
structure Fcr where
  /-- The stream buffer, oldest byte first (R21). -/
  buf : Bytes
  /-- The boundary detector's mode (R22). -/
  mode : Mode
  /-- The candidate frame; index 0 is the STX that opened it (R23). -/
  cand : Bytes
  /-- The frame-out slot (R24). -/
  out : Option Bytes
  deriving DecidableEq, Repr

/-- The state after reset (R32, R210): every store empty, the detector seeking. -/
def Fcr.reset : Fcr where
  buf := []
  mode := .idle
  cand := []
  out := none

/-- The error kinds an operation of the block returns (R180, R181, R185); names only, no codes (R186). -/
inductive ErrorKind where
  /-- COMPOSE: `paNo` or `frNo` is not exactly 2 bytes (R181). -/
  | invalidAddress
  /-- COMPOSE: more than 65535 data bytes (R185). -/
  | dataTooLong
  /-- COMPOSE: a byte `0x03` in the data while `ETX_IN_DATA_FAULTS` (R185). -/
  | unsupportedPayload
  /-- CHECKSUM: `bytes` is empty (R185). -/
  | emptyInput
  deriving DecidableEq, Repr

/-- The event a STEP outputs (R140): a closed set. -/
inductive Event where
  | quiet
  | noiseDiscard (b : Byte)
  | resyncDiscard (c : Bytes)
  | checksumDiscard (c : Bytes)
  | frameEmitted (f : Bytes)
  | candOverrun (c : Bytes) (b : Byte)
  deriving DecidableEq, Repr

/-- The five flags STATUS returns (R28, R161), as a record of named values; no packing is fixed. -/
structure Flags where
  frameValid : Bool
  frameLen : Nat
  bufEmpty : Bool
  bufFull : Bool
  accumulating : Bool
  deriving DecidableEq, Repr

/-- What an operation returns. -/
inductive Result where
  /-- CHECKSUM's byte (R101). -/
  | checksum (b : Byte)
  /-- The frame COMPOSE builds, or a FRAME row spells (R103, R70). -/
  | built (f : Bytes)
  /-- ISVALID's Boolean (R105). -/
  | valid (v : Bool)
  /-- TAKE's `Frame(f)` (R160). -/
  | frame (f : Bytes)
  /-- TAKE's `NoFrame`, a result and not an error (R160). -/
  | noFrame
  /-- STATUS's flags (R161). -/
  | flags (v : Flags)
  /-- The error kind an operation raises (R189). -/
  | error (e : ErrorKind)
  /-- A reserved select code is refused (R81). -/
  | refused (code : BitVec 4)
  deriving DecidableEq, Repr

/-- What the host asks for next (R33: an input from outside). -/
inductive Request where
  /-- A select code and operands (R81). -/
  | command (code : BitVec 4) (operands : List Bytes)
  /-- A frame, spelled by its bytes (the rows of format FRAME). -/
  | wire (bytes : Bytes)
  /-- GETFRAME (R163): a loop of TAKE that gives up with `Timeout` when it has met `NoFrame` more than `polls`
  times. When it gives up is the environment's free choice (R164, R165), so it is plain data here. -/
  | getFrame (polls : Nat)
  deriving DecidableEq, Repr

/-- How a GETFRAME wait ended (R163). -/
inductive Wait where
  | frame (f : Bytes)
  /-- Expiry or cancellation, one and the same failure (R164, R165). -/
  | timeout
  deriving DecidableEq, Repr

/-- Whose step is next (R194), or that the hardware's reset input is asserted (R210). -/
inductive Turn where
  | source
  | detector
  | host
  | resetInput
  deriving DecidableEq, Repr

/-- What lies outside the block (R33). DESIGN CHOICE (notes/assumptions/1.md): held beside the block as plain data. -/
structure Env where
  /-- The bytes the byte source has yet to push, oldest first. -/
  incoming : Bytes
  /-- What the host has yet to issue, in order. -/
  requests : List Request
  /-- Who moves next, in order; any list is allowed, since no rule fixes the order (R188). -/
  schedule : List Turn
  /-- How the host's finished waits ended, oldest first. -/
  waits : List Wait
  deriving DecidableEq, Repr

/-- The block, its parameters, its environment, and the record of what it put out. -/
structure State where
  /-- The parameters of R6; no operation writes them. -/
  params : Params
  /-- The block's architectural state. -/
  fcr : Fcr
  /-- The environment. -/
  env : Env
  /-- The events STEP has output, oldest first; no step reads them (R196). -/
  events : List Event
  /-- The results the operations have returned, oldest first; no step reads them. -/
  results : List Result
  deriving DecidableEq, Repr

/-- Why the machine stops with a fault: never. "There is no fault bit and no stuck state" (R189), so the
type has no constructor. -/
inductive Fault where
  deriving DecidableEq, Repr

/-- Why the machine gives no meaning. -/
inductive Refusal where
  /-- Raised by `exec`'s arm of an operation that has no meaning yet; safe. No arm raises it. -/
  | notModelled (mnemonic : String)
  /-- Raised by `step` when the host's next request is no encoding of an operation (a frame that is not
  well formed, or a command with too many operands); safe: nothing is claimed of it (notes/assumptions/6.md). -/
  | undecodable (e : DecodeError)
  deriving DecidableEq, Repr

/-- An environment with nothing to do. -/
def Env.quiet : Env where
  incoming := []
  requests := []
  schedule := []
  waits := []

/-- The machine right after reset: the block as R32 gives it, with nothing placed in the environment. The
parameters are the recommended ones, DESIGN CHOICE (notes/assumptions/2.md). -/
def State.reset : State where
  params := Params.recommended
  fcr := Fcr.reset
  env := Env.quiet
  events := []
  results := []

/-- The state with the block's stores replaced. -/
def State.withFcr (s : State) (f : Fcr) : State := { s with fcr := f }

/-- The state with the environment replaced. -/
def State.withEnv (s : State) (e : Env) : State := { s with env := e }

/-- The state with one more event recorded (R196). -/
def State.output (s : State) (ev : Event) : State := { s with events := s.events ++ [ev] }

/-- The state with one more result recorded. -/
def State.answer (s : State) (r : Result) : State := { s with results := s.results ++ [r] }

end Sys2Proof.Machine
end

