-- ==== Sys2Proof/Machine/Flags.lean ====
section
/-! DEFINITION. The five status flags, each a pure function of the state (`10_state.md` rule R28). -/

namespace Sys2Proof.Machine

/-- `frame_len`: the length of the frame in `out`, else 0; a natural number, wide enough for any `CAND_MAX`. -/
def Fcr.frameLen (f : Fcr) : Nat :=
  match f.out with
  | some g => g.length
  | none => 0

/-- The flags of R28; `buf_full` is never set when `BUF_DEPTH = ∞`. -/
def Fcr.flags (P : Params) (f : Fcr) : Flags where
  frameValid := f.out.isSome
  frameLen := f.frameLen
  bufEmpty := f.buf.isEmpty
  bufFull := P.bufDepth.isReached f.buf.length
  accumulating := f.mode == .acc

end Sys2Proof.Machine
end

