-- ==== Sys2Proof/Machine/Ops.lean ====
section
/-! DEFINITION. The named operations over the stores: raising an error, the detector's moves (`41_reassembler.md`),
composing (`40_codec.md`), and what the agent whose turn it is offers the block (`60_exceptions.md` rule R194). -/

namespace Sys2Proof.Machine

/-- Raising an error kind (R9, R189): the kind is the operation's whole result; nothing is saved, no control goes
anywhere, no store is written. There is no return operation (R190). -/
def raise (s : State) (e : ErrorKind) : State := s.answer (.error e)

/-- COMPOSE's result (R103), its failures tested in the order of R104. -/
def composeResult (P : Params) (paNo frNo data : Bytes) : Except ErrorKind Bytes :=
  if paNo.length ≠ 2 ∨ frNo.length ≠ 2 then .error .invalidAddress
  else if Config.maxData < data.length then .error .dataTooLong
  else if data.contains Config.etx && P.etxInDataFaults then .error .unsupportedPayload
  else .ok (frameBytes paNo frNo data)

/-- A frame-building result, or the error raised in its place. -/
def deliver (s : State) (r : Except ErrorKind Bytes) : State :=
  match r with
  | .ok f => s.answer (.built f)
  | .error e => raise s e

/-- What one detector case does: the next mode and candidate, the frame emitted if any, and the event (R140). -/
structure Move where
  mode : Mode
  cand : Bytes
  emitted : Option Bytes
  event : Event
  deriving DecidableEq, Repr

/-- R133 and R134: a byte received in `Idle` other than STX is discarded; nothing else changes, so a candidate that is not
empty, which `Idle` never has (R25), is left as it is (DEDUCED, notes/assumptions/10.md). -/
def discardNoise (cand : Bytes) (b : Byte) : Move := ⟨.idle, cand, none, .noiseDiscard b⟩

/-- R135: a candidate opens. -/
def openCandidate : Move := ⟨.acc, [Config.stx], none, .quiet⟩

/-- R136: resynchronisation, whatever the length of the candidate. -/
def resynchronise (cand : Bytes) : Move := ⟨.acc, [Config.stx], none, .resyncDiscard cand⟩

/-- R137: the byte is appended. -/
def extend (cand : Bytes) (b : Byte) : Move := ⟨.acc, cand ++ [b], none, .quiet⟩

/-- R138: the ETX is appended, and from 10 bytes on the candidate is closed: emitted or discarded. -/
def closeOrKeep (cand : Bytes) : Move :=
  if (cand ++ [Config.etx]).length < Config.minFrame then ⟨.acc, cand ++ [Config.etx], none, .quiet⟩
  else if validChecksum (cand ++ [Config.etx]) then
    ⟨.idle, [], some (cand ++ [Config.etx]), .frameEmitted (cand ++ [Config.etx])⟩
  else ⟨.idle, [], none, .checksumDiscard (cand ++ [Config.etx])⟩

/-- R139: the candidate and the byte are dropped; nothing is validated. -/
def overrun (cand : Bytes) (b : Byte) : Move := ⟨.idle, [], none, .candOverrun cand b⟩

/-- The effect of one STEP (R132) on the state: the buffer without its head, and the case's move. -/
def State.moved (s : State) (rest : Bytes) (mv : Move) : State :=
  (s.withFcr ⟨rest, mv.mode, mv.cand, mv.emitted⟩).output mv.event

/-- The candidate has no room for one more byte: the seventh case of R75. The spec's condition is
`|cand| = CAND_MAX`; a longer candidate cannot be reached (R23; DESIGN CHOICE, notes/assumptions/9.md). -/
def candFull (s : State) : Bool := !s.params.candMax.hasRoom s.fcr.cand.length

/-- STEP in one of its cases (R132): enabled when a byte waits and `out` is empty, and selected by the mode,
the byte and the case's condition; a case that is not selected has no step, and nothing changes (R9;
DESIGN CHOICE, notes/assumptions/3.md). -/
def detectorStep (s : State) (mode : Mode) (b : Byte) (cond : Bool) (mv : Move) : Host.Outcome State Fault Refusal :=
  match s.fcr.out, s.fcr.buf with
  | none, head :: rest =>
    if head = b ∧ s.fcr.mode = mode ∧ cond = true then .next (s.moved rest mv) else .next s
  | _, _ => .next s

/-- PUSH is enabled (R130, R65). -/
def canPush (s : State) : Bool := s.params.bufDepth.hasRoom s.fcr.buf.length

/-- One byte appended at the tail of `buf` (R130). -/
def State.accept (s : State) (b : Byte) : State := s.withFcr { s.fcr with buf := s.fcr.buf ++ [b] }

/-- The encoding on which the detector would step: the head of `buf`, when STEP is enabled (R132). -/
def detectorWord (s : State) : Option Encoded :=
  match s.fcr.out, s.fcr.buf with
  | none, b :: _ => some (.sym8 s.fcr.mode (candFull s) b)
  | _, _ => none

/-- The encoding the byte source offers: its next byte, when PUSH is enabled (R130). -/
def sourceWord (s : State) : Option Encoded :=
  match s.env.incoming with
  | b :: _ => if canPush s then some (.byte8 b) else none
  | [] => none

/-- The encoding a request puts on the host's channel; each iteration of GETFRAME issues TAKE's code (R163, R81). -/
def Request.encoded : Request → Encoded
  | .command code operands => .cmd4 code operands
  | .wire bytes => .frame bytes
  | .getFrame _ => .cmd4 0x4#4 []

/-- The encoding the host issues, if it has a request. -/
def hostWord (s : State) : Option Encoded :=
  match s.env.requests with
  | r :: _ => some r.encoded
  | [] => none

/-- Whose turn it is. With nothing scheduled the detector moves by itself, which is all the fairness R132
and R222 promise (notes/assumptions/11.md). -/
def turn (s : State) : Turn := s.env.schedule.headD .detector

/-- The encoding on the channel of the agent whose turn it is; `none` when that agent has no enabled operation. The
reset input acts as RESET (R210, R32). -/
def fetchWord (s : State) : Option Encoded :=
  match turn s with
  | .source => sourceWord s
  | .detector => detectorWord s
  | .host => hostWord s
  | .resetInput => some (.cmd4 0x6#4 [])

/-- What the byte source still has to push after its turn: a byte a full buffer did not accept stays (R131). -/
def incomingAfter (s : State) : Bytes :=
  if canPush s then s.env.incoming.tail else s.env.incoming

/-- What the host still has to issue after its turn. A GETFRAME whose TAKE returns a frame is done, a frame wins over
expiry; at `NoFrame` it gives up or polls again (R163, R164). -/
def requestsAfter (s : State) : List Request :=
  match s.env.requests, s.fcr.out with
  | .getFrame (polls + 1) :: rest, none => .getFrame polls :: rest
  | _ :: rest, _ => rest
  | [], _ => []

/-- How the host's wait ended, if its turn ends one (R163). -/
def waitEnding (s : State) : List Wait :=
  match s.env.requests, s.fcr.out with
  | .getFrame _ :: _, some f => [.frame f]
  | .getFrame 0 :: _, none => [.timeout]
  | _, _ => []

/-- The environment once the agent whose turn it is has moved. -/
def envAfter (s : State) : Env :=
  match turn s with
  | .source => { s.env with incoming := incomingAfter s, schedule := s.env.schedule.tail }
  | .detector => { s.env with schedule := s.env.schedule.tail }
  | .host =>
    { s.env with
      requests := requestsAfter s
      waits := s.env.waits ++ waitEnding s
      schedule := s.env.schedule.tail }
  | .resetInput => { s.env with schedule := s.env.schedule.tail }

/-- The state with its environment moved on; the block, its parameters and the records are as before. -/
def advance (s : State) : State := s.withEnv (envAfter s)

/-- The state in which an encoding is the next on its channel and that channel's agent has the next turn. -/
def State.place (s : State) (w : Encoded) : State :=
  match w with
  | .sym8 _ _ b =>
    { s with fcr := { s.fcr with buf := b :: s.fcr.buf }, env := { s.env with schedule := .detector :: s.env.schedule } }
  | .byte8 b =>
    s.withEnv { s.env with incoming := b :: s.env.incoming, schedule := .source :: s.env.schedule }
  | .cmd4 code operands =>
    s.withEnv { s.env with
      requests := .command code operands :: s.env.requests, schedule := .host :: s.env.schedule }
  | .frame bytes =>
    s.withEnv { s.env with requests := .wire bytes :: s.env.requests, schedule := .host :: s.env.schedule }

end Sys2Proof.Machine
end

