-- ==== Sys2Proof/Machine/Codec.lean ====
section
/-! DEFINITION. The codec: CHECKSUM, COMPOSE, ISVALID (`40_codec.md`), and the rows of format FRAME (`30_encoding.md` rules
R70, R78, R79, R82). All are pure: they read and write none of the block's stores (R30). -/

namespace Sys2Proof.Machine

/-- R101: the fold of `bytes ++ extra`, `EmptyInput` when `bytes` is empty, whether or not `extra` is. -/
def execChecksum (bytes : Bytes) (extra : Option Bytes) (s : State) : Host.Outcome State Fault Refusal :=
  match bytes with
  | [] => .next (raise s .emptyInput)
  | b :: rest => .next (s.answer (.checksum (xorOnto b (rest ++ extra.getD []))))

/-- R103, R104. -/
def execCompose (paNo frNo data : Bytes) (s : State) : Host.Outcome State Fault Refusal :=
  .next (deliver s (composeResult s.params paNo frNo data))

/-- R105. -/
def execIsvalid (frame : Bytes) (s : State) : Host.Outcome State Fault Refusal :=
  .next (s.answer (.valid (validChecksum frame)))

/-- R70: the frame that carries `data`, for up to 65535 data bytes; more cannot be counted by the length field and are
refused as COMPOSE refuses them (R102 law 5). It is the layout, not the composer: no byte of the data is tested
(DESIGN CHOICE, notes/assumptions/7.md). -/
def execFrame (paNo frNo : Half) (data : Bytes) (s : State) : Host.Outcome State Fault Refusal :=
  .next (deliver s
    (if Config.maxData < data.length then .error .dataTooLong
     else .ok (frameBytes (halfBytes paNo) (halfBytes frNo) data)))

/-- R82: `ACKFRAME(frNo)` is `COMPOSE([0x00,0x00], frNo, [0x06])`. -/
def execAckFrame (frNo : Half) (s : State) : Host.Outcome State Fault Refusal :=
  .next (deliver s (composeResult s.params [0x00#8, 0x00#8] (halfBytes frNo) [Config.ack]))

/-- R79, R82: `SYNCFRAME` is the literal `02 01 00 01 00 01 00 00 03 03`. -/
def execSyncFrame (s : State) : Host.Outcome State Fault Refusal :=
  .next (s.answer (.built syncBytes))

end Sys2Proof.Machine
end

