-- ==== Sys2Proof/Machine/Detector.lean ====
section
/-! DEFINITION. The seven cases of the boundary detector's STEP (`41_reassembler.md` rules R132 to R139). -/

namespace Sys2Proof.Machine

/-- R135: `mode <- Acc; cand <- [STX]`, event `Quiet`. -/
def execStepIdleStx (s : State) : Host.Outcome State Fault Refusal :=
  detectorStep s .idle Config.stx true openCandidate

/-- R134: event `NoiseDiscard(0x03)` and nothing else. -/
def execStepIdleEtx (s : State) : Host.Outcome State Fault Refusal :=
  detectorStep s .idle Config.etx true (discardNoise s.fcr.cand Config.etx)

/-- R133: event `NoiseDiscard(b)` and nothing else. -/
def execStepIdleOther (b : Byte) (s : State) : Host.Outcome State Fault Refusal :=
  detectorStep s .idle b (classify b == .other) (discardNoise s.fcr.cand b)

/-- R136: the candidate is discarded and a new one opened, whatever its length. -/
def execStepAccStx (s : State) : Host.Outcome State Fault Refusal :=
  detectorStep s .acc Config.stx true (resynchronise s.fcr.cand)

/-- R138: the ETX is appended; a candidate of 10 bytes or more is closed. -/
def execStepAccEtx (s : State) : Host.Outcome State Fault Refusal :=
  detectorStep s .acc Config.etx (!candFull s) (closeOrKeep s.fcr.cand)

/-- R137: the byte is appended. -/
def execStepAccOther (b : Byte) (s : State) : Host.Outcome State Fault Refusal :=
  detectorStep s .acc b (classify b == .other && !candFull s) (extend s.fcr.cand b)

/-- R139: a candidate of `CAND_MAX` bytes and the byte are discarded. -/
def execStepAccOverrun (b : Byte) (s : State) : Host.Outcome State Fault Refusal :=
  detectorStep s .acc b (classify b != .stx && candFull s) (overrun s.fcr.cand b)

end Sys2Proof.Machine
end

