-- ==== Sys2Proof/Machine/HostOps.lean ====
section
/-! DEFINITION. The host's operations on the block (`42_host_interface.md` rules R160 to R162) and the reserved select codes
(`30_encoding.md` rule R81). -/

namespace Sys2Proof.Machine

/-- R160: the emitted frame is returned and the slot emptied, or `NoFrame` is returned. -/
def execTake (s : State) : Host.Outcome State Fault Refusal :=
  match s.fcr.out with
  | some f => .next ((s.withFcr { s.fcr with out := none }).answer (.frame f))
  | none => .next (s.answer .noFrame)

/-- R161: the flags of R28; no state is changed. -/
def execStatus (s : State) : Host.Outcome State Fault Refusal :=
  .next (s.answer (.flags (s.fcr.flags s.params)))

/-- R162: every store emptied, the detector idle, without an event and without a result. -/
def execReset (s : State) : Host.Outcome State Fault Refusal :=
  .next (s.withFcr Fcr.reset)

/-- R81: "refused: the block has no meaning for them and changes nothing". The refusal is what the host gets back
(DESIGN CHOICE, notes/assumptions/5.md). -/
def execReserved (code : BitVec 4) (s : State) : Host.Outcome State Fault Refusal :=
  .next (s.answer (.refused code))

end Sys2Proof.Machine
end

