-- ==== Sys2Proof/Machine/Ingress.lean ====
section
/-! DEFINITION. The stream buffer accumulator (`41_reassembler.md` rules R130, R131). -/

namespace Sys2Proof.Machine

/-- R130: `buf <- buf ++ [b]`; at a full buffer the operation has no step and nothing changes
(DESIGN CHOICE, notes/assumptions/3.md). -/
def execPush (b : Byte) (s : State) : Host.Outcome State Fault Refusal :=
  if canPush s then .next (s.accept b) else .next s

/-- `PUSHN` (R131) with no other operation between its bytes: the state, and the bytes that wait because the buffer
filled part way. -/
def pushN (s : State) : Bytes → State × Bytes
  | [] => (s, [])
  | b :: bs => if canPush s then pushN (s.accept b) bs else (s, b :: bs)

end Sys2Proof.Machine
end

