-- ==== Sys2Proof/Machine/Dispatch.lean ====
section
/-! DEFINITION. One arm for each constructor of `Instr`: one direct call of its meaning. -/

namespace Sys2Proof.Machine

def exec (i : Instr) (s : State) : Host.Outcome State Fault Refusal :=
  match i with
  | .stepIdleStx => Sys2Proof.Machine.execStepIdleStx s
  | .stepIdleEtx => Sys2Proof.Machine.execStepIdleEtx s
  | .stepIdleOther b => Sys2Proof.Machine.execStepIdleOther b s
  | .stepAccStx => Sys2Proof.Machine.execStepAccStx s
  | .stepAccEtx => Sys2Proof.Machine.execStepAccEtx s
  | .stepAccOther b => Sys2Proof.Machine.execStepAccOther b s
  | .stepAccOverrun b => Sys2Proof.Machine.execStepAccOverrun b s
  | .push b => Sys2Proof.Machine.execPush b s
  | .checksum bytes extra => Sys2Proof.Machine.execChecksum bytes extra s
  | .compose paNo frNo data => Sys2Proof.Machine.execCompose paNo frNo data s
  | .isvalid frame => Sys2Proof.Machine.execIsvalid frame s
  | .take => Sys2Proof.Machine.execTake s
  | .status => Sys2Proof.Machine.execStatus s
  | .reset => Sys2Proof.Machine.execReset s
  | .cmd4Reserved code => Sys2Proof.Machine.execReserved code s
  | .frame paNo frNo data => Sys2Proof.Machine.execFrame paNo frNo data s
  | .ackFrame frNo => Sys2Proof.Machine.execAckFrame frNo s
  | .syncFrame => Sys2Proof.Machine.execSyncFrame s

end Sys2Proof.Machine
end

