-- ==== Sys2Proof/Machine/Step.lean ====
section
/-! DEFINITION. One step: the agent whose turn it is moves (`60_exceptions.md` rule R194), and its operation is decoded
and run in one indivisible step (`00_scope.md` rule R5, `20_memory.md` rule R58). -/

namespace Sys2Proof.Machine

/-- One step. An agent with no enabled operation leaves the block as it is. -/
def step (s : State) : Host.Outcome State Fault Refusal :=
  match fetchWord s with
  | none => .next (advance s)
  | some w =>
    match decode w with
    | .ok i => exec i (advance s)
    | .error e => .refused (.undecodable e)

/-- The state whose next step runs that word of the table (notes/assumptions/8.md). -/
def State.withFetchWord (s : State) (nbits w : Nat) : State := s.place (tableWord nbits w)

end Sys2Proof.Machine
end

