-- ==== Sys2Proof/Machine/Stream.lean ====
section
/-! DEFINITION. The detector as a function of the stream (`41_reassembler.md` rule R141): `Run` and `Frames`. -/

namespace Sys2Proof.Machine

/-- The move of the case that the mode, the byte's class and the candidate's length select (R75, R144). -/
def detectByte (P : Params) (mode : Mode) (cand : Bytes) (b : Byte) : Move :=
  match mode, classify b with
  | .idle, .stx => openCandidate
  | .idle, .etx => discardNoise cand b
  | .idle, .other => discardNoise cand b
  | .acc, .stx => resynchronise cand
  | .acc, .etx => if P.candMax.hasRoom cand.length then closeOrKeep cand else overrun cand b
  | .acc, .other => if P.candMax.hasRoom cand.length then extend cand b else overrun cand b

/-- What `Run` returns: the final mode and candidate, the frames and the events, oldest first. -/
structure RunResult where
  mode : Mode
  cand : Bytes
  frames : List Bytes
  events : List Event
  deriving DecidableEq, Repr

/-- `Run((m, c), s)` (R141): the cases applied to each byte in order, each emitted frame put in the list of frames. -/
def runStream (P : Params) (mode : Mode) (cand : Bytes) : Bytes → RunResult
  | [] => ⟨mode, cand, [], []⟩
  | b :: s =>
    let mv := detectByte P mode cand b
    let r := runStream P mv.mode mv.cand s
    ⟨r.mode, r.cand, mv.emitted.toList ++ r.frames, mv.event :: r.events⟩

/-- `Frames(s)` (R141): the frames of `Run((Idle, []), s)`. -/
def framesOf (P : Params) (s : Bytes) : List Bytes := (runStream P .idle [] s).frames

end Sys2Proof.Machine
end

