-- ==== Sys2Proof/Safety.lean ====
section
/-! DEFINITION. What holds of the block along every run, in the terms the claims use: the invariants of `10_state.md` rule
R25, and what the stream consumed so far determines (`41_reassembler.md` rule R141). -/

namespace Sys2Proof.Machine

/-- Items 1 and 2 of R25: no candidate in `Idle`; in `Acc` one whose first byte is STX. -/
def Fcr.modeMatches (f : Fcr) : Prop :=
  (f.mode = .idle ↔ f.cand = []) ∧ (f.mode = .acc → f.cand[0]? = some Config.stx)

/-- Items 3 and 4 of R25: in an open candidate no STX after the first byte, and every ETX at index 8 or lower. -/
def Fcr.delimitersMatch (f : Fcr) : Prop :=
  f.mode = .acc →
    (∀ i, 1 ≤ i → f.cand[i]? ≠ some Config.stx) ∧ (∀ i, f.cand[i]? = some Config.etx → i ≤ 8)

/-- Item 5 of R25: a frame in `out` is one the detector may emit. -/
def Fcr.outMatches (P : Params) (f : Fcr) : Prop := ∀ g, f.out = some g → receivable P g = true

/-- Item 6 of R25: both stores within their capacities. -/
def Fcr.withinCapacity (P : Params) (f : Fcr) : Prop :=
  P.bufDepth.holds f.buf.length = true ∧ P.candMax.holds f.cand.length = true

/-- The invariants of R25, for parameters of the types R6 gives them. -/
structure State.Inv (s : State) : Prop where
  legal : s.params.legal = true
  modeMatches : s.fcr.modeMatches
  delimiters : s.fcr.delimitersMatch
  out : s.fcr.outMatches s.params
  capacity : s.fcr.withinCapacity s.params

/-- The frame a result hands over, if it is TAKE's (R160). -/
def Result.taken : Result → Option Bytes
  | .frame f => some f
  | .checksum _ => none
  | .built _ => none
  | .valid _ => none
  | .noFrame => none
  | .flags _ => none
  | .error _ => none
  | .refused _ => none

/-- The frames TAKE has returned so far, oldest first. -/
def State.taken (s : State) : List Bytes := s.results.filterMap Result.taken

/-- The operation the next step runs, if any. -/
def nextInstr (s : State) : Option Instr :=
  match fetchWord s with
  | none => none
  | some w =>
    match decode w with
    | .ok i => some i
    | .error _ => none

/-- The bytes STEP consumes in the next step: one if the next operation is a STEP, else none (R132). -/
def consumedNext (s : State) : Bytes := ((nextInstr s).bind Instr.symbol).toList

/-- The bytes the next step accepts (R130). -/
def acceptedNext (s : State) : Bytes :=
  match nextInstr s with
  | some i => i.pushed
  | none => []

/-- What R141 says of a state whose STEPs have consumed `p` since reset: the mode and candidate are those of
`Run((Idle, []), p)`, and the frames returned so far, then the frame in `out` if any, are `Frames(p)`. -/
structure State.Tracks (s : State) (p : Bytes) : Prop where
  mode : s.fcr.mode = (runStream s.params .idle [] p).mode
  cand : s.fcr.cand = (runStream s.params .idle [] p).cand
  frames : s.taken ++ s.fcr.out.toList = framesOf s.params p

end Sys2Proof.Machine
end

