-- ==== Sys2Proof/Certificates/Slice0/Obligations.lean ====
section
/-! DEFINITION. The statements for the provers, each from a numbered rule of spec/. -/

namespace Sys2Proof.Machine

/-- The hypothesis of every STEP case: STEP is enabled (R132) on the head `b`, with `rest` behind it, in `mode`. -/
def StepReady (s : State) (mode : Mode) (b : Byte) (rest : Bytes) : Prop :=
  s.fcr.out = none ∧ s.fcr.buf = b :: rest ∧ s.fcr.mode = mode

/-- An operation that belongs to the codec (R30) or to the rows of format FRAME. -/
def IsCodec (i : Instr) : Prop :=
  (∃ bytes extra, i = .checksum bytes extra) ∨ (∃ paNo frNo data, i = .compose paNo frNo data) ∨
    (∃ f, i = .isvalid f) ∨ i.format = .frame

end Sys2Proof.Machine

open Sys2Proof Sys2Proof.Machine

/-- R32, the table: the four stores, the flags (for every legal BUF_DEPTH and CAND_MAX, not only the model's
choice of them) and the constants. -/
def Obligations.ResetLeavesTheStoresEmpty : Prop :=
  State.reset.fcr = ⟨[], .idle, [], none⟩ ∧
    (∀ P : Params, P.legal = true → State.reset.fcr.flags P = ⟨false, 0, true, false, false⟩) ∧
    Config.stx = 0x02#8 ∧ Config.etx = 0x03#8 ∧ Config.version = 0x01#8 ∧ Config.ack = 0x06#8 ∧
    Config.minFrame = 10 ∧ Config.hdrLen = 8 ∧ Config.maxData = 65535 ∧ Config.maxFrame = 65545

/-- R25 at reset. The parameters at reset are the model's choice (notes/assumptions/2.md). -/
def Obligations.InvariantsHoldAtReset : Prop := State.reset.Inv

/-- R25: every step from a state that meets the invariants gives a state that meets them. -/
def Obligations.EveryStepKeepsTheInvariants : Prop :=
  ∀ s t : State, s.Inv → step s = .next t → t.Inv

/-- R130, while there is room: one byte at the tail, whatever the mode, the candidate and the frame-out slot are;
nothing else changes. -/
def Obligations.PushAppendsAtTheTail : Prop :=
  ∀ (b : Byte) (s : State), s.params.bufDepth.hasRoom s.fcr.buf.length = true →
    exec (.push b) s = .next { s with fcr := { s.fcr with buf := s.fcr.buf ++ [b] } } ∧
      ({ s.fcr with buf := s.fcr.buf ++ [b] } : Fcr).flags s.params =
        { s.fcr.flags s.params with
          bufEmpty := false
          bufFull := s.params.bufDepth.isReached (s.fcr.buf.length + 1) }

/-- R130, R65 at a full buffer: nothing changes. That an operation without a step answers the same state is the model's
choice (notes/assumptions/3.md). -/
def Obligations.PushAtAFullBufferChangesNothing : Prop :=
  ∀ (b : Byte) (s : State), s.params.bufDepth.hasRoom s.fcr.buf.length = false → exec (.push b) s = .next s

/-- R131, R65: at a full buffer the source's byte waits, at the head of what it has yet to push (the model's
choice, notes/assumptions/14.md); otherwise it leaves the source and is the last byte of `buf`. -/
def Obligations.SourceTurnPushesOrWaits : Prop :=
  ∀ (s : State) (b : Byte) (bs : Bytes), turn s = .source → s.env.incoming = b :: bs →
    step s = .next
      (if s.params.bufDepth.hasRoom s.fcr.buf.length = true then
        { s with
          fcr := { s.fcr with buf := s.fcr.buf ++ [b] }
          env := { s.env with incoming := bs, schedule := s.env.schedule.tail } }
      else { s with env := { s.env with schedule := s.env.schedule.tail } })

/-- R133. -/
def Obligations.NoiseInIdleIsDiscarded : Prop :=
  ∀ (s : State) (b : Byte) (rest : Bytes), StepReady s .idle b rest → classify b = .other →
    exec (.stepIdleOther b) s = .next
      { s with fcr := { s.fcr with buf := rest }, events := s.events ++ [.noiseDiscard b] }

/-- R134. -/
def Obligations.StrayEtxInIdleIsDiscarded : Prop :=
  ∀ (s : State) (rest : Bytes), StepReady s .idle Config.etx rest →
    exec .stepIdleEtx s = .next
      { s with fcr := { s.fcr with buf := rest }, events := s.events ++ [.noiseDiscard 0x03#8] }

/-- R135. -/
def Obligations.StxInIdleOpensACandidate : Prop :=
  ∀ (s : State) (rest : Bytes), StepReady s .idle Config.stx rest →
    ∃ t : State, exec .stepIdleStx s = .next t ∧
      t = { s with
        fcr := { s.fcr with buf := rest, mode := .acc, cand := [Config.stx] }
        events := s.events ++ [.quiet] } ∧
      (t.fcr.flags t.params).accumulating = true

/-- R136, whatever the length of the candidate. -/
def Obligations.StxInAccResynchronises : Prop :=
  ∀ (s : State) (rest : Bytes), StepReady s .acc Config.stx rest →
    exec .stepAccStx s = .next
      { s with
        fcr := { s.fcr with buf := rest, cand := [Config.stx] }
        events := s.events ++ [.resyncDiscard s.fcr.cand] }

/-- R137. -/
def Obligations.OtherInAccIsAppended : Prop :=
  ∀ (s : State) (b : Byte) (rest : Bytes), StepReady s .acc b rest → classify b = .other →
    s.params.candMax.hasRoom s.fcr.cand.length = true →
    exec (.stepAccOther b) s = .next
      { s with
        fcr := { s.fcr with buf := rest, cand := s.fcr.cand ++ [b] }
        events := s.events ++ [.quiet] }

/-- R138, its three cases (a), (b) and (c), with the flags of (b) and (c). -/
def Obligations.EtxInAccKeepsEmitsOrDiscards : Prop :=
  ∀ (s : State) (rest : Bytes), StepReady s .acc Config.etx rest →
    s.params.candMax.hasRoom s.fcr.cand.length = true →
    ∃ t : State, exec .stepAccEtx s = .next t ∧
      (if (s.fcr.cand ++ [Config.etx]).length < 10 then
        t = { s with
          fcr := { s.fcr with buf := rest, cand := s.fcr.cand ++ [Config.etx] }
          events := s.events ++ [.quiet] }
      else if validChecksum (s.fcr.cand ++ [Config.etx]) = true then
        t = { s with
          fcr := ⟨rest, .idle, [], some (s.fcr.cand ++ [Config.etx])⟩
          events := s.events ++ [.frameEmitted (s.fcr.cand ++ [Config.etx])] } ∧
          (t.fcr.flags t.params).frameValid = true ∧
          (t.fcr.flags t.params).frameLen = (s.fcr.cand ++ [Config.etx]).length ∧
          (t.fcr.flags t.params).accumulating = false
      else
        t = { s with
          fcr := ⟨rest, .idle, [], none⟩
          events := s.events ++ [.checksumDiscard (s.fcr.cand ++ [Config.etx])] } ∧
          (t.fcr.flags t.params).accumulating = false)

/-- R139: at `|cand| = CAND_MAX` the candidate and a byte other than STX are discarded, an ETX too; with `CAND_MAX = ∞`
the case cannot occur. -/
def Obligations.OverrunDiscardsTheCandidate : Prop :=
  (∀ (s : State) (b : Byte) (rest : Bytes), StepReady s .acc b rest → classify b ≠ .stx →
    s.params.candMax = .atMost s.fcr.cand.length →
    ∃ t : State, exec (.stepAccOverrun b) s = .next t ∧
      t = { s with
        fcr := ⟨rest, .idle, [], none⟩
        events := s.events ++ [.candOverrun s.fcr.cand b] } ∧
      (t.fcr.flags t.params).accumulating = false) ∧
  (∀ (s : State) (w : Encoded) (b : Byte), s.params.candMax = .unbounded → detectorWord s = some w →
    decode w ≠ .ok (.stepAccOverrun b))

/-- R132, R9: a STEP case has an effect only where the detector's decoder selects it: a byte waits, `out` is empty, and the
mode, the byte's class and the candidate's length are the case's. That it then answers the same state is
the model's choice (notes/assumptions/3.md). -/
def Obligations.AnUnselectedCaseChangesNothing : Prop :=
  ∀ (i : Instr) (s : State), i.symbol ≠ none →
    (∀ w, detectorWord s = some w → decode w ≠ .ok i) → exec i s = .next s

/-- R132, R140: on the detector's turn, when STEP is enabled, exactly one byte leaves `buf` and exactly one event is
output, in every case, and the mode, the candidate and the slot are those of the one case that applies. Turns are
the model's environment (notes/assumptions/1.md). -/
def Obligations.EachStepConsumesOneByteAndOutputsOneEvent : Prop :=
  ∀ (s : State) (b : Byte) (rest : Bytes), turn s = .detector → s.fcr.out = none → s.fcr.buf = b :: rest →
    step s = .next
      { s with
        fcr := ⟨rest, (detectByte s.params s.fcr.mode s.fcr.cand b).mode,
          (detectByte s.params s.fcr.mode s.fcr.cand b).cand,
          (detectByte s.params s.fcr.mode s.fcr.cand b).emitted⟩
        env := { s.env with schedule := s.env.schedule.tail }
        events := s.events ++ [(detectByte s.params s.fcr.mode s.fcr.cand b).event] }

/-- R132, R222: when nobody else is to move, an enabled STEP is taken, and as many steps as `buf` has bytes empty
`buf` unless a frame is emitted first. The schedule is the model's (notes/assumptions/11.md). -/
def Obligations.AnUndisturbedDetectorDrainsTheBuffer : Prop :=
  ∀ s : State, s.env.schedule = [] → ∃ t : State,
    Host.Core.run core s.fcr.buf.length s = .next t ∧ (t.fcr.buf = [] ∨ t.fcr.out ≠ none) ∧
      t.results = s.results ∧ t.params = s.params ∧ t.env = s.env

/-- R101. -/
def Obligations.ChecksumFoldsBytesThenExtra : Prop :=
  (∀ (bytes : Bytes) (extra : Option Bytes) (s : State), bytes ≠ [] →
    ∃ v, xorFold (bytes ++ extra.getD []) = some v ∧
      exec (.checksum bytes extra) s = .next { s with results := s.results ++ [.checksum v] }) ∧
  (∀ (extra : Option Bytes) (s : State),
    exec (.checksum [] extra) s = .next { s with results := s.results ++ [.error .emptyInput] }) ∧
  (∀ v : Byte, ∀ s : State,
    exec (.checksum [v] none) s = .next { s with results := s.results ++ [.checksum v] })

/-- R101, the corner cases: the split between `bytes` and `extra` does not matter, nor does an empty `extra`. -/
def Obligations.ChecksumIgnoresTheSplit : Prop :=
  ∀ (a b : Bytes) (s : State), a ≠ [] →
    exec (.checksum a (some b)) s = exec (.checksum (a ++ b) none) s ∧
      exec (.checksum a (some [])) s = exec (.checksum a none) s

/-- R102 law 3, and R100: the fold of a concatenation, of a sequence followed by its fold, of a rearrangement. -/
def Obligations.TheFoldIsAdditiveAndOrderFree : Prop :=
  (∀ (s t : Bytes) (x y : Byte), xorFold s = some x → xorFold t = some y → xorFold (s ++ t) = some (x ^^^ y)) ∧
  (∀ (s : Bytes) (x : Byte), xorFold s = some x → xorFold (s ++ [x]) = some 0x00#8) ∧
  (∀ s t : Bytes, s.Perm t → xorFold s = xorFold t)

/-- R102 law 4: one byte changed from `v` to `v'` changes the fold by `v xor v'`. -/
def Obligations.OneChangedByteChangesTheFold : Prop :=
  ∀ (s : Bytes) (i : Nat) (v v' x : Byte), s[i]? = some v → xorFold s = some x →
    xorFold (s.set i v') = some (x ^^^ (v ^^^ v')) ∧ (x ^^^ (v ^^^ v') = x ↔ v = v')

/-- R103: the frame, when none of R104's failures applies. -/
def Obligations.ComposeBuildsTheFrame : Prop :=
  ∀ (p0 p1 f0 f1 : Byte) (data : Bytes) (s : State), data.length ≤ 65535 →
    (s.params.etxInDataFaults = true → Config.etx ∉ data) →
    ∃ chk, xorFold ([0x02#8, 0x01#8, p0, p1, f0, f1, hi data.length, lo data.length] ++ data) = some chk ∧
      exec (.compose [p0, p1] [f0, f1] data) s = .next
        { s with
          results := s.results ++
            [.built ([0x02#8, 0x01#8, p0, p1, f0, f1, hi data.length, lo data.length] ++ data ++
              [chk, 0x03#8])] }

/-- R104: the failures, in order; nothing but the error is returned and no store is written. -/
def Obligations.ComposeFailsInTheStatedOrder : Prop :=
  ∀ (paNo frNo data : Bytes) (s : State),
    (paNo.length ≠ 2 ∨ frNo.length ≠ 2 →
      exec (.compose paNo frNo data) s = .next { s with results := s.results ++ [.error .invalidAddress] }) ∧
    (paNo.length = 2 → frNo.length = 2 → 65535 < data.length →
      exec (.compose paNo frNo data) s = .next { s with results := s.results ++ [.error .dataTooLong] }) ∧
    (paNo.length = 2 → frNo.length = 2 → data.length ≤ 65535 → s.params.etxInDataFaults = true →
      0x03#8 ∈ data →
      exec (.compose paNo frNo data) s =
        .next { s with results := s.results ++ [.error .unsupportedPayload] }) ∧
    (paNo.length = 2 → frNo.length = 2 → data.length ≤ 65535 →
      (s.params.etxInDataFaults = false ∨ 0x03#8 ∉ data) →
      exec (.compose paNo frNo data) s =
        .next { s with results := s.results ++ [.built (frameBytes paNo frNo data)] })

/-- R105: `false` below 3 bytes, else the fold of all but the last two bytes against the last but one; the
last byte is not read. -/
def Obligations.IsvalidTestsTheChecksumOnly : Prop :=
  (∀ (f : Bytes) (s : State), ∃ v : Bool,
    exec (.isvalid f) s = .next { s with results := s.results ++ [.valid v] } ∧
      (f.length < 3 → v = false) ∧
      (3 ≤ f.length → (v = true ↔ ∃ x, xorFold (f.take (f.length - 2)) = some x ∧ f[f.length - 2]? = some x))) ∧
  (∀ (g : Bytes) (x y : Byte) (s : State),
    exec (.isvalid (g ++ [x])) s = exec (.isvalid (g ++ [y])) s)

/-- R30: a codec operation writes nothing but its result, and its result depends on its operands and the parameters
only. That the rows of format FRAME are such operations is the model's choice (notes/assumptions/7.md). -/
def Obligations.CodecOperationsTouchNoState : Prop :=
  ∀ (i : Instr) (P : Params), IsCodec i →
    ∃ r : Result, ∀ s : State, s.params = P → exec i s = .next { s with results := s.results ++ [r] }

/-- R70 as the meaning of the row FRAME, and its refusal of data the length field cannot count; both are the model's
choice (notes/assumptions/7.md). -/
def Obligations.FrameRowSpellsTheLayout : Prop :=
  (∀ (paNo frNo : Half) (data : Bytes) (s : State), data.length ≤ 65535 →
    ∃ p0 p1 f0 f1 chk, be16 p0 p1 = paNo.toNat ∧ be16 f0 f1 = frNo.toNat ∧
      be16 (hi data.length) (lo data.length) = data.length ∧
      xorFold ([0x02#8, 0x01#8, p0, p1, f0, f1, hi data.length, lo data.length] ++ data) = some chk ∧
      exec (.frame paNo frNo data) s = .next
        { s with
          results := s.results ++
            [.built ([0x02#8, 0x01#8, p0, p1, f0, f1, hi data.length, lo data.length] ++ data ++
              [chk, 0x03#8])] }) ∧
  (∀ (paNo frNo : Half) (data : Bytes) (s : State), 65535 < data.length →
    exec (.frame paNo frNo data) s = .next { s with results := s.results ++ [.error .dataTooLong] })

/-- R78, R82; that the row is an operation of the host is the model's choice (notes/assumptions/7.md). -/
def Obligations.AckFrameIsElevenBytes : Prop :=
  ∀ (h l : Byte) (s : State),
    exec (.ackFrame (joinHalf h l)) s = .next
      { s with
        results := s.results ++
          [.built [0x02#8, 0x01#8, 0x00#8, 0x00#8, h, l, 0x00#8, 0x01#8, 0x06#8, 0x04#8 ^^^ h ^^^ l, 0x03#8]] } ∧
    exec (.ackFrame (joinHalf h l)) s = exec (.compose [0x00#8, 0x00#8] [h, l] [0x06#8]) s

/-- R79, R82; that the row is an operation of the host is the model's choice (notes/assumptions/7.md). -/
def Obligations.SyncFrameIsTheComposedLiteral : Prop :=
  ∀ s : State,
    exec .syncFrame s = .next
      { s with
        results := s.results ++
          [.built [0x02#8, 0x01#8, 0x00#8, 0x01#8, 0x00#8, 0x01#8, 0x00#8, 0x00#8, 0x03#8, 0x03#8]] } ∧
    exec .syncFrame s = exec (.compose [0x00#8, 0x01#8] [0x00#8, 0x01#8] []) s

/-- R160. -/
def Obligations.TakeReturnsTheFrameOnce : Prop :=
  (∀ (s : State) (f : Bytes), s.fcr.out = some f →
    ∃ t : State, exec .take s = .next t ∧
      t = { s with fcr := { s.fcr with out := none }, results := s.results ++ [.frame f] } ∧
      (t.fcr.flags t.params).frameValid = false ∧ (t.fcr.flags t.params).frameLen = 0 ∧
      (t.fcr.buf ≠ [] → ∃ w, detectorWord t = some w)) ∧
  (∀ s : State, s.fcr.out = none → exec .take s = .next { s with results := s.results ++ [.noFrame] })

/-- R161, with the flags as R28 gives them; no store is changed. -/
def Obligations.StatusReturnsTheFiveFlags : Prop :=
  ∀ s : State, ∃ v : Flags,
    exec .status s = .next { s with results := s.results ++ [.flags v] } ∧
      (v.frameValid = true ↔ s.fcr.out ≠ none) ∧
      (∀ f, s.fcr.out = some f → v.frameLen = f.length) ∧ (s.fcr.out = none → v.frameLen = 0) ∧
      (v.bufEmpty = true ↔ s.fcr.buf = []) ∧
      (v.bufFull = true ↔ s.params.bufDepth = .atMost s.fcr.buf.length) ∧
      (v.accumulating = true ↔ s.fcr.mode = .acc)

/-- R162: every store emptied, no event, and the block as hardware reset leaves it. -/
def Obligations.ResetOperationEmptiesTheStores : Prop :=
  ∀ s : State, exec .reset s = .next { s with fcr := ⟨[], .idle, [], none⟩ } ∧
    (⟨[], .idle, [], none⟩ : Fcr) = State.reset.fcr

/-- R210: the reset input has the effect of RESET. That the input is a turn of the schedule is the model's choice
(notes/assumptions/12.md). -/
def Obligations.ResetInputActsAsReset : Prop :=
  ∀ s : State, turn s = .resetInput →
    step s = .next { s with
      fcr := ⟨[], .idle, [], none⟩
      env := { s.env with schedule := s.env.schedule.tail } }

/-- R81: a code without a meaning decodes to the reserved row with any operands, and is refused: no store changes.
That the refusal is a result after which the machine goes on is the model's choice (notes/assumptions/5.md). -/
def Obligations.ReservedCodesAreRefused : Prop :=
  ∀ (code : BitVec 4) (operands : List Bytes) (s : State), code = 0x0#4 ∨ 7 ≤ code.toNat →
    decode (.cmd4 code operands) = .ok (.cmd4Reserved code) ∧
      exec (.cmd4Reserved code) s = .next { s with results := s.results ++ [.refused code] }

/-- R81: the six select codes, each with its operands in the order of the table. How operands are carried is the model's
choice (notes/assumptions/6.md). -/
def Obligations.SelectCodesDecode : Prop :=
  ∀ a b c : Bytes,
    decode (.cmd4 0x1#4 [a]) = .ok (.checksum a none) ∧ decode (.cmd4 0x1#4 [a, b]) = .ok (.checksum a (some b)) ∧
    decode (.cmd4 0x2#4 [a, b, c]) = .ok (.compose a b c) ∧ decode (.cmd4 0x3#4 [a]) = .ok (.isvalid a) ∧
    decode (.cmd4 0x4#4 []) = .ok .take ∧ decode (.cmd4 0x5#4 []) = .ok .status ∧
    decode (.cmd4 0x6#4 []) = .ok .reset

/-- Every operand of every well-formed operation survives encoding and decoding. -/
def Obligations.DecodeInvertsEncode : Prop :=
  ∀ i : Instr, i.WellFormed → decode (encode i) = .ok i

/-- The other direction, where a word has one meaning: a decoded frame or ingress byte encodes to itself. -/
def Obligations.EncodeInvertsDecodeOfFramesAndBytes : Prop :=
  (∀ (f : Bytes) (i : Instr), decode (.frame f) = .ok i → encode i = .frame f) ∧
  (∀ (b : Byte) (i : Instr), decode (.byte8 b) = .ok i → encode i = .byte8 b)

/-- What the decoder accepts is a well-formed term of its row (R74, R81, R70). -/
def Obligations.DecodedOperationsAreWellFormed : Prop :=
  ∀ (w : Encoded) (i : Instr), decode w = .ok i → i.WellFormed ∧ i.format = w.format

/-- R83, R70: the decoder accepts the bytes of a frame exactly when they are `WellFormed`. That it tests this is the
model's choice (notes/assumptions/7.md). -/
def Obligations.FramesDecodeExactlyWhenWellFormed : Prop :=
  ∀ f : Bytes, (∃ i, decode (.frame f) = .ok i) ↔ frameWellFormed f = true

/-- A few words written out from `30_encoding.md` and `95_test_vectors.md` (V1, V3, V11c, V18). -/
def Obligations.WordsOfTheSpecDecode : Prop :=
  decode (.frame [0x02#8, 0x01#8, 0x00#8, 0x01#8, 0x00#8, 0x01#8, 0x00#8, 0x00#8, 0x03#8, 0x03#8]) =
      .ok .syncFrame ∧
    decode (.frame [0x02#8, 0x01#8, 0x00#8, 0x00#8, 0x00#8, 0x01#8, 0x00#8, 0x01#8, 0x06#8, 0x05#8, 0x03#8]) =
      .ok (.ackFrame 0x0001#16) ∧
    decode (.frame [0x02#8, 0x01#8, 0x03#8, 0xE8#8, 0x00#8, 0x01#8, 0x00#8, 0x01#8, 0x41#8, 0xA9#8, 0x03#8]) =
      .ok (.frame 0x03E8#16 0x0001#16 [0x41#8]) ∧
    decode (.sym8 .idle false 0x02#8) = .ok .stepIdleStx ∧ decode (.sym8 .acc false 0x03#8) = .ok .stepAccEtx ∧
    decode (.sym8 .acc true 0x02#8) = .ok .stepAccStx ∧
    decode (.byte8 0x55#8) = .ok (.push 0x55#8)

/-- R74: the three classes. -/
def Obligations.ByteClassesAreByValue : Prop :=
  ∀ b : Byte, (classify b = .stx ↔ b = 0x02#8) ∧ (classify b = .etx ↔ b = 0x03#8) ∧
    (classify b = .other ↔ b ≠ 0x02#8 ∧ b ≠ 0x03#8)

/-- R75: which of the seven cases the mode, the byte and the candidate's being full select. -/
def Obligations.ModeAndClassSelectTheCase : Prop :=
  ∀ (b : Byte) (full : Bool),
    (classify b = .stx → decode (.sym8 .idle full b) = .ok .stepIdleStx ∧
      decode (.sym8 .acc full b) = .ok .stepAccStx) ∧
    (classify b = .etx → decode (.sym8 .idle full b) = .ok .stepIdleEtx ∧
      decode (.sym8 .acc false b) = .ok .stepAccEtx) ∧
    (classify b = .other → decode (.sym8 .idle full b) = .ok (.stepIdleOther b) ∧
      decode (.sym8 .acc false b) = .ok (.stepAccOther b)) ∧
    (classify b ≠ .stx → decode (.sym8 .acc true b) = .ok (.stepAccOverrun b))

/-- A step runs the decoded operation: the environment moves on, and the operation is executed. The agent whose turn it is
and what it offers are the model's environment (notes/assumptions/1.md). -/
def Obligations.StepRunsTheDecodedOperation : Prop :=
  (∀ (s : State) (w : Encoded) (i : Instr), fetchWord s = some w → decode w = .ok i →
    step s = exec i (advance s) ∧ (advance s).fcr = s.fcr ∧ (advance s).params = s.params ∧
      (advance s).events = s.events ∧ (advance s).results = s.results ∧
      (advance s).env.schedule = s.env.schedule.tail) ∧
  (∀ s : State, fetchWord s = none → step s = .next (advance s))

/-- R189 and R163: every operation completes in every state, as one step; one that is not enabled answers the same
state, which is the model's choice (notes/assumptions/3.md). -/
def Obligations.EveryOperationAnswersANextState : Prop :=
  ∀ (i : Instr) (s : State), ∃ t, exec i s = .next t

/-- R189: no step faults; a step is refused only for a request of the host that is no encoding of an operation
(notes/assumptions/6.md). -/
def Obligations.OnlyUndecodableRequestsStopAStep : Prop :=
  (∀ (s : State) (r : Fault), step s ≠ .fault r) ∧
  (∀ (s : State) (r : Refusal), step s = .refused r →
    turn s = .host ∧ ∃ q rest e, s.env.requests = q :: rest ∧ decode q.encoded = .error e ∧ r = .undecodable e)

/-- R21 to R24, R33: which operations may write which store, and that none writes the parameters or the
environment; only a STEP outputs an event, and a STEP returns nothing. -/
def Obligations.OnlyTheNamedOperationsWriteEachStore : Prop :=
  ∀ (i : Instr) (s t : State), exec i s = .next t →
    t.params = s.params ∧ t.env = s.env ∧
    (i.symbol = none → t.events = s.events) ∧ (i.symbol ≠ none → t.results = s.results) ∧
    (i.symbol = none → i.pushed = [] → i ≠ .reset → t.fcr.buf = s.fcr.buf) ∧
    (i.symbol = none → i ≠ .reset → t.fcr.mode = s.fcr.mode ∧ t.fcr.cand = s.fcr.cand) ∧
    (i.symbol = none → i ≠ .take → i ≠ .reset → t.fcr.out = s.fcr.out)

/-- R196, R33: no operation reads the events, the results or the environment: from two states that agree on the parameters
and the stores it does the same. -/
def Obligations.RecordsAndEnvironmentAreNeverRead : Prop :=
  ∀ (i : Instr) (s s' t t' : State), s.params = s'.params → s.fcr = s'.fcr →
    exec i s = .next t → exec i s' = .next t' →
    t.fcr = t'.fcr ∧ ∃ evs rs, t.events = s.events ++ evs ∧ t'.events = s'.events ++ evs ∧
      t.results = s.results ++ rs ∧ t'.results = s'.results ++ rs

/-- R60, R132: bytes leave `buf` in the order they were pushed, none lost or made up, in every step but a reset. -/
def Obligations.BytesLeaveInTheOrderPushed : Prop :=
  ∀ s t : State, step s = .next t → nextInstr s ≠ some .reset →
    consumedNext s ++ t.fcr.buf = s.fcr.buf ++ acceptedNext s

/-- R141: whatever operations are interleaved, the mode, the candidate and the frames handed over are those of
`Run((Idle, []), p)` for the bytes `p` consumed so far. RESET starts a new stream. -/
def Obligations.EveryStepFollowsTheStream : Prop :=
  ∀ (s t : State) (p : Bytes), s.Tracks p → step s = .next t → nextInstr s ≠ some .reset →
    t.Tracks (p ++ consumedNext s)

/-- R141, R32: at reset nothing has been consumed. -/
def Obligations.ResetTracksTheEmptyStream : Prop := State.reset.Tracks []

/-- R141: `Run` over a concatenation is `Run` over its parts, in the final mode and candidate, the frames and the events; so
`Frames(p)` is an initial part of `Frames(p ++ t)`. -/
def Obligations.FramesOfALongerStreamExtend : Prop :=
  ∀ (P : Params) (m : Mode) (c p t : Bytes),
    (∃ r q : RunResult, runStream P m c p = r ∧ runStream P r.mode r.cand t = q ∧
      runStream P m c (p ++ t) = ⟨q.mode, q.cand, r.frames ++ q.frames, r.events ++ q.events⟩) ∧
      framesOf P p <+: framesOf P (p ++ t)

/-- R131, R142: PUSHN is PUSH of each byte in order, for as long as PUSH has room (the rest is left over), so pushing two
chunks is pushing their concatenation, also when the buffer fills part way. That PUSHN's bytes follow one another
with no other operation between is a special case of R131, which allows others there. -/
def Obligations.ChunksPushLikeTheirConcatenation : Prop :=
  (∀ s : State, pushN s [] = (s, [])) ∧
  (∀ (s : State) (b : Byte) (bs : Bytes), s.params.bufDepth.hasRoom s.fcr.buf.length = true →
    ∃ t : State, exec (.push b) s = .next t ∧ t = { s with fcr := { s.fcr with buf := s.fcr.buf ++ [b] } } ∧
      pushN s (b :: bs) = pushN t bs) ∧
  (∀ (s : State) (b : Byte) (bs : Bytes), s.params.bufDepth.hasRoom s.fcr.buf.length = false →
    pushN s (b :: bs) = (s, b :: bs)) ∧
  (∀ (s : State) (a b : Bytes),
    pushN s (a ++ b) =
        (if (pushN s a).2 = [] then pushN (pushN s a).1 b else ((pushN s a).1, (pushN s a).2 ++ b)) ∧
      (pushN s a).1.fcr.buf ++ (pushN s a).2 = s.fcr.buf ++ a)

/-- R223: a receivable frame is emitted, itself and nothing else, on its last byte, from every mode and candidate. -/
def Obligations.ReceivableFramesAreDelivered : Prop :=
  ∀ (P : Params) (f : Bytes), receivable P f = true →
    framesOf P f = [f] ∧
    ∀ (m : Mode) (c : Bytes), (runStream P m c f).frames = [f] ∧ (runStream P m c f).mode = .idle ∧
      (runStream P m c f).cand = [] ∧ (runStream P m c (f.take (f.length - 1))).frames = []

/-- R223: whatever is emitted from any stream is receivable. -/
def Obligations.OnlyReceivableFramesAreEmitted : Prop :=
  ∀ (P : Params) (s f : Bytes), f ∈ framesOf P s → receivable P f = true

/-- R143 item 1: two receivable frames amid noise without a byte `0x02` are obtained, in order, and nothing else. -/
def Obligations.TwoFramesAmidNoiseAreObtained : Prop :=
  ∀ (P : Params) (n1 f1 n2 f2 : Bytes), receivable P f1 = true → receivable P f2 = true →
    Config.stx ∉ n1 → Config.stx ∉ n2 → framesOf P (n1 ++ f1 ++ n2 ++ f2) = [f1, f2]

/-- R143 item 2: a receivable frame whose checksum byte `x` is replaced by another value `v`. It is never emitted: it is
discarded whole, or lost to a resynchronisation, or closed one byte early, in which case a shorter sequence is
emitted exactly when `x` is `0x00` (C12). -/
def Obligations.ACorruptedChecksumIsNeverDelivered : Prop :=
  ∀ (P : Params) (m : Mode) (cand f : Bytes) (x v : Byte), receivable P f = true → f[f.length - 2]? = some x →
    v ≠ x →
    f.set (f.length - 2) v ∉ (runStream P m cand (f.set (f.length - 2) v)).frames ∧
    (classify v = .other ∨ (v = Config.etx ∧ f.length = 10) →
      (runStream P m cand (f.set (f.length - 2) v)).frames = [] ∧
        (runStream P m cand (f.set (f.length - 2) v)).mode = .idle ∧
        (runStream P m cand (f.set (f.length - 2) v)).cand = []) ∧
    (v = Config.stx →
      (runStream P m cand (f.set (f.length - 2) v)).frames = [] ∧
        (runStream P m cand (f.set (f.length - 2) v)).mode = .acc ∧
        (runStream P m cand (f.set (f.length - 2) v)).cand = [0x02#8, 0x03#8]) ∧
    (v = Config.etx → 10 < f.length →
      (runStream P m cand (f.set (f.length - 2) v)).frames =
          (if x = 0x00#8 then [f.take (f.length - 2) ++ [0x03#8]] else []) ∧
        (runStream P m cand (f.set (f.length - 2) v)).mode = .idle ∧
        (runStream P m cand (f.set (f.length - 2) v)).cand = [])

/-- R223, its last part: which frames COMPOSE builds are receivable, in terms of their bytes. -/
def Obligations.ComposedFramesReceivableByTheirBytes : Prop :=
  ∀ (P : Params) (p0 p1 f0 f1 chk : Byte) (data : Bytes), data.length ≤ 65535 →
    P.candMax.holds (data.length + 10) = true →
    xorFold ([0x02#8, 0x01#8, p0, p1, f0, f1, hi data.length, lo data.length] ++ data) = some chk →
    (receivable P (frameBytes [p0, p1] [f0, f1] data) = true ↔
      (0x02#8 ∉ [p0, p1, f0, f1, hi data.length, lo data.length] ++ data ++ [chk]) ∧
      (∀ i, 1 ≤ i → data[i]? ≠ some 0x03#8) ∧ (chk = 0x03#8 → data = []))

/-- R106. -/
def Obligations.ComposedFramesAreValidAndWellFormed : Prop :=
  ∀ (P : Params) (paNo frNo data f : Bytes), composeResult P paNo frNo data = .ok f →
    validChecksum f = true ∧ frameWellFormed f = true ∧ (f.drop 2).take 2 = paNo ∧ (f.drop 4).take 2 = frNo ∧
      (f.drop 8).take data.length = data

/-- R107: a change of one byte is seen, unless it is the last byte. -/
def Obligations.OneCorruptedByteIsDetected : Prop :=
  ∀ (f : Bytes) (i : Nat) (v v' : Byte), 3 ≤ f.length → validChecksum f = true → f[i]? = some v → v' ≠ v →
    (i ≤ f.length - 2 → validChecksum (f.set i v') = false) ∧
    (i = f.length - 1 → validChecksum (f.set i v') = true)

/-- R108. -/
def Obligations.ValidityHasThreeForms : Prop :=
  ∀ f : Bytes, 3 ≤ f.length →
    (validChecksum f = true ↔ xorFold (f.take (f.length - 1)) = some 0x00#8) ∧
    (f[f.length - 1]? = some 0x03#8 → (validChecksum f = true ↔ xorFold f = some 0x03#8))

/-- R144, R190: an STX leads to `(Acc, [STX])` from every mode and candidate, and emits nothing. -/
def Obligations.StxRestartsFromEveryState : Prop :=
  ∀ (P : Params) (m : Mode) (c : Bytes),
    (detectByte P m c Config.stx).mode = .acc ∧ (detectByte P m c Config.stx).cand = [Config.stx] ∧
      (detectByte P m c Config.stx).emitted = none

/-- R163, R164: on the host's turn a GETFRAME ends with the frame if one waits, whatever its deadline; else it polls again or
ends with Timeout, and neither changes the block. When it gives up is the environment's (notes/assumptions/13.md). -/
def Obligations.GetFrameReturnsTheFrameOrTimesOut : Prop :=
  ∀ (s : State) (polls : Nat) (rest : List Request), turn s = .host → s.env.requests = .getFrame polls :: rest →
    (∀ f, s.fcr.out = some f → step s = .next
      { s with
        fcr := { s.fcr with out := none }
        env := { s.env with
          requests := rest, waits := s.env.waits ++ [.frame f], schedule := s.env.schedule.tail }
        results := s.results ++ [.frame f] }) ∧
    (s.fcr.out = none → polls = 0 → step s = .next
      { s with
        env := { s.env with
          requests := rest, waits := s.env.waits ++ [.timeout], schedule := s.env.schedule.tail }
        results := s.results ++ [.noFrame] }) ∧
    (∀ n, s.fcr.out = none → polls = n + 1 → step s = .next
      { s with
        env := { s.env with requests := .getFrame n :: rest, schedule := s.env.schedule.tail }
        results := s.results ++ [.noFrame] })
end

