-- ==== Sys2Proof/Laws/Operands.lean ====
section
/-! SUPPORT. The small lemmas of the operand forms: the classes, the fold, the layout, the capacities. -/

namespace Sys2Proof

theorem classify_eq_stx (b : Byte) : classify b = .stx ↔ b = Config.stx := by
  unfold classify; split <;> rename_i h <;> simp [h]; split <;> simp

theorem classify_eq_etx (b : Byte) : classify b = .etx ↔ b = Config.etx := by
  unfold classify; split
  · rename_i h; subst h; simp [Config.stx, Config.etx]
  · split <;> rename_i h <;> simp [h]

theorem classify_eq_other (b : Byte) : classify b = .other ↔ b ≠ Config.stx ∧ b ≠ Config.etx := by
  unfold classify; split <;> rename_i h
  · simp [h]
  · split <;> rename_i h' <;> simp [h, h']

@[simp] theorem classify_stx : classify Config.stx = .stx := (classify_eq_stx _).2 rfl
@[simp] theorem classify_etx : classify Config.etx = .etx := (classify_eq_etx _).2 rfl

/-! ### The fold -/

@[simp] theorem xorOnto_nil (x : Byte) : xorOnto x [] = x := rfl

@[simp] theorem xorOnto_cons (x b : Byte) (s : Bytes) : xorOnto x (b :: s) = xorOnto (x ^^^ b) s := rfl

theorem xorOnto_append (x : Byte) (s t : Bytes) : xorOnto x (s ++ t) = xorOnto (xorOnto x s) t := by
  simp [xorOnto]

/-- The accumulator comes out of the fold: it may be started from zero (R100). -/
theorem xorOnto_eq_xor (s : Bytes) : ∀ x, xorOnto x s = x ^^^ xorOnto 0#8 s := by
  induction s with
  | nil => simp
  | cons b s ih => intro x; simp [ih (x ^^^ b), ih b, BitVec.xor_assoc]

@[simp] theorem xorFold_nil : xorFold [] = none := rfl

@[simp] theorem xorFold_cons (b : Byte) (s : Bytes) : xorFold (b :: s) = some (xorOnto b s) := rfl

/-- A sequence has a fold exactly when it is not empty (R100). -/
theorem xorFold_of_ne_nil {s : Bytes} (h : s ≠ []) : xorFold s = some (xorOnto 0#8 s) := by
  cases s with
  | nil => exact absurd rfl h
  | cons b s => simp

/-! ### Capacities and the predicates on sequences -/

/-- The five conditions of R223, each as a proposition. -/
theorem receivable_iff (P : Params) (f : Bytes) : receivable P f = true ↔
    10 ≤ f.length ∧ P.candMax.holds f.length = true ∧ f[0]? = some Config.stx ∧
      f[f.length - 1]? = some Config.etx ∧ validChecksum f = true ∧ Config.stx ∉ f.drop 1 ∧
      Config.etx ∉ (f.take (f.length - 1)).drop 9 := by
  have h : decide (Config.minFrame ≤ f.length) = true ↔ 10 ≤ f.length := decide_eq_true_iff
  simp only [receivable, Bool.and_eq_true, h, beq_iff_eq, Bool.not_eq_true', List.contains_eq_mem,
    decide_eq_false_iff_not, and_assoc]

/-- The checksum test on a sequence with its last two bytes apart (R105). -/
theorem validChecksum_append (s : Bytes) (x e : Byte) (h : s ≠ []) :
    validChecksum (s ++ [x, e]) = true ↔ xorFold s = some x := by
  have hs : 1 ≤ s.length := List.length_pos_iff.2 h
  simp only [validChecksum]
  rw [if_neg (by simp; omega), show (s ++ [x, e]).length - 2 = s.length by simp, List.take_left,
    List.getElem?_append_right (by omega)]
  simp


theorem hasRoom_holds {c : Capacity} {k : Nat} (h : c.hasRoom k = true) : c.holds (k + 1) = true := by
  cases c <;> simp_all [Capacity.hasRoom, Capacity.holds]

theorem holds_mono {c : Capacity} {k n : Nat} (h : c.holds n = true) (hk : k ≤ n) : c.holds k = true := by
  cases c
  · rfl
  · simp_all [Capacity.holds]
    omega

theorem holds_of_atLeast {c : Capacity} {k n : Nat} (h : c.atLeast n = true) (hk : k ≤ n) : c.holds k = true := by
  cases c
  · rfl
  · simp_all [Capacity.holds, Capacity.atLeast]
    omega

/-! ### The layout -/

theorem frameBody_length (paNo frNo data : Bytes) :
    (frameBody paNo frNo data).length = paNo.length + frNo.length + data.length + 3 := by
  simp [frameBody]; omega

theorem frameBytes_length (paNo frNo data : Bytes) :
    (frameBytes paNo frNo data).length = paNo.length + frNo.length + data.length + 6 := by
  simp [frameBytes, frameBody_length]

theorem toNat_hi (n : Nat) : (hi n).toNat = n / 256 % 256 := by simp [hi]

theorem toNat_lo (n : Nat) : (lo n).toNat = n % 256 := by simp [lo]

/-- The length field holds every count up to 65535 (R53, R109). -/
theorem be16_hi_lo {n : Nat} (h : n ≤ 65535) : be16 (hi n) (lo n) = n := by
  simp [be16, toNat_hi, toNat_lo]; omega

@[simp] theorem halfBytes_joinHalf (h l : Byte) : halfBytes (joinHalf h l) = [h, l] := by
  simp only [halfBytes, List.cons.injEq, and_true]
  constructor
  · apply BitVec.eq_of_getLsbD_eq
    intro i hi
    rw [BitVec.getLsbD_extractLsb', joinHalf, BitVec.getLsbD_append]
    simp [hi]
  · apply BitVec.eq_of_getLsbD_eq
    intro i hi
    rw [BitVec.getLsbD_extractLsb', joinHalf, BitVec.getLsbD_append]
    simp [hi]

theorem joinHalf_halfBytes (x : Half) : joinHalf (x.extractLsb' 8 8) (x.extractLsb' 0 8) = x := by
  apply BitVec.eq_of_getLsbD_eq
  intro i hi
  simp only [joinHalf, BitVec.getLsbD_append, BitVec.getLsbD_extractLsb']
  by_cases h : i < 8
  · simp [h]
  · simp [h, show i - 8 < 8 by omega, show 8 + (i - 8) = i by omega]

end Sys2Proof
end

