-- ==== Sys2Proof/Laws/State.lean ====
section
/-! SUPPORT. One lemma per field per update of the state, each true by unfolding the update. -/

namespace Sys2Proof.Machine

variable (s : State) (f : Fcr) (e : Env) (ev : Event) (r : Result)

@[simp] theorem withFcr_params : (s.withFcr f).params = s.params := rfl
@[simp] theorem withFcr_fcr : (s.withFcr f).fcr = f := rfl
@[simp] theorem withFcr_env : (s.withFcr f).env = s.env := rfl
@[simp] theorem withFcr_events : (s.withFcr f).events = s.events := rfl
@[simp] theorem withFcr_results : (s.withFcr f).results = s.results := rfl

@[simp] theorem withEnv_params : (s.withEnv e).params = s.params := rfl
@[simp] theorem withEnv_fcr : (s.withEnv e).fcr = s.fcr := rfl
@[simp] theorem withEnv_env : (s.withEnv e).env = e := rfl
@[simp] theorem withEnv_events : (s.withEnv e).events = s.events := rfl
@[simp] theorem withEnv_results : (s.withEnv e).results = s.results := rfl

@[simp] theorem output_params : (s.output ev).params = s.params := rfl
@[simp] theorem output_fcr : (s.output ev).fcr = s.fcr := rfl
@[simp] theorem output_env : (s.output ev).env = s.env := rfl
@[simp] theorem output_events : (s.output ev).events = s.events ++ [ev] := rfl
@[simp] theorem output_results : (s.output ev).results = s.results := rfl

@[simp] theorem answer_params : (s.answer r).params = s.params := rfl
@[simp] theorem answer_fcr : (s.answer r).fcr = s.fcr := rfl
@[simp] theorem answer_env : (s.answer r).env = s.env := rfl
@[simp] theorem answer_events : (s.answer r).events = s.events := rfl
@[simp] theorem answer_results : (s.answer r).results = s.results ++ [r] := rfl

variable (b : Byte) (rest : Bytes) (mv : Move)

@[simp] theorem accept_params : (s.accept b).params = s.params := rfl
@[simp] theorem accept_fcr : (s.accept b).fcr = { s.fcr with buf := s.fcr.buf ++ [b] } := rfl
@[simp] theorem accept_env : (s.accept b).env = s.env := rfl
@[simp] theorem accept_events : (s.accept b).events = s.events := rfl
@[simp] theorem accept_results : (s.accept b).results = s.results := rfl

@[simp] theorem moved_params : (s.moved rest mv).params = s.params := rfl
@[simp] theorem moved_fcr : (s.moved rest mv).fcr = ⟨rest, mv.mode, mv.cand, mv.emitted⟩ := rfl
@[simp] theorem moved_env : (s.moved rest mv).env = s.env := rfl
@[simp] theorem moved_events : (s.moved rest mv).events = s.events ++ [mv.event] := rfl
@[simp] theorem moved_results : (s.moved rest mv).results = s.results := rfl

@[simp] theorem advance_params : (advance s).params = s.params := rfl
@[simp] theorem advance_fcr : (advance s).fcr = s.fcr := rfl
@[simp] theorem advance_events : (advance s).events = s.events := rfl
@[simp] theorem advance_results : (advance s).results = s.results := rfl

@[simp] theorem advance_schedule : (advance s).env.schedule = s.env.schedule.tail := by
  simp only [advance, withEnv_env, envAfter]
  split <;> rfl

end Sys2Proof.Machine
end

