-- ==== Sys2Proof/Laws/Ops.lean ====
section
/-! SUPPORT. What each shared operation can do, said once: the detector's step, delivering a frame, pushing, taking; and the
same for the meanings by the operation they share. -/

namespace Sys2Proof.Machine

/-- A STEP case that is enabled and selected takes its move. -/
theorem detectorStep_selected {s : State} {mode : Mode} {b : Byte} {rest : Bytes} {cond : Bool} {mv : Move}
    (ho : s.fcr.out = none) (hb : s.fcr.buf = b :: rest) (hm : s.fcr.mode = mode) (hc : cond = true) :
    detectorStep s mode b cond mv = .next (s.moved rest mv) := by
  simp [detectorStep, ho, hb, hm, hc]

/-- A STEP case either takes its move, being enabled and selected, or changes nothing. -/
theorem detectorStep_cases (s : State) (mode : Mode) (b : Byte) (cond : Bool) (mv : Move) :
    detectorStep s mode b cond mv = .next s ∨
      ∃ rest, s.fcr.out = none ∧ s.fcr.buf = b :: rest ∧ s.fcr.mode = mode ∧ cond = true ∧
        detectorStep s mode b cond mv = .next (s.moved rest mv) := by
  unfold detectorStep
  split
  · rename_i head rest ho hb
    split
    · rename_i h
      obtain ⟨rfl, hm, hc⟩ := h
      exact .inr ⟨rest, ho, hb, hm, hc, rfl⟩
    · exact .inl rfl
  · exact .inl rfl

/-- R138(a): a candidate that stays below the minimum length stays open. -/
theorem closeOrKeep_short {c : Bytes} (h : (c ++ [Config.etx]).length < 10) :
    closeOrKeep c = ⟨.acc, c ++ [Config.etx], none, .quiet⟩ := by
  rw [closeOrKeep, if_pos (by simpa [Config.minFrame] using h)]

/-- R138(b): a valid candidate of the minimum length or more is emitted. -/
theorem closeOrKeep_emits {c : Bytes} (h : ¬ (c ++ [Config.etx]).length < 10)
    (hv : validChecksum (c ++ [Config.etx]) = true) :
    closeOrKeep c = ⟨.idle, [], some (c ++ [Config.etx]), .frameEmitted (c ++ [Config.etx])⟩ := by
  simp only [closeOrKeep, Config.minFrame, if_neg h, if_pos hv]

/-- R138(c): an invalid one is discarded. -/
theorem closeOrKeep_discards {c : Bytes} (h : ¬ (c ++ [Config.etx]).length < 10)
    (hv : ¬ validChecksum (c ++ [Config.etx]) = true) :
    closeOrKeep c = ⟨.idle, [], none, .checksumDiscard (c ++ [Config.etx])⟩ := by
  simp only [closeOrKeep, Config.minFrame, if_neg h, if_neg hv]

/-- A codec operation adds exactly one result. -/
theorem deliver_eq_answer (s : State) (r : Except ErrorKind Bytes) :
    ∃ v, deliver s r = s.answer v ∧ ∀ s' : State, deliver s' r = s'.answer v := by
  cases r with
  | ok f => exact ⟨.built f, rfl, fun _ => rfl⟩
  | error e => exact ⟨.error e, rfl, fun _ => rfl⟩

/-- COMPOSE fails, or has operands of two bytes and at most 65535 data bytes and builds the frame (R104). -/
theorem composeResult_ok {P : Params} {paNo frNo data f : Bytes} (h : composeResult P paNo frNo data = .ok f) :
    paNo.length = 2 ∧ frNo.length = 2 ∧ data.length ≤ 65535 ∧ f = frameBytes paNo frNo data := by
  unfold composeResult at h
  split at h
  · simp at h
  · split at h
    · simp at h
    · split at h
      · simp at h
      · simp [Config.maxData] at *
        exact ⟨by tauto, by tauto, by omega, h.symm⟩

/-- What an operation can do: take the move of the one detector case that is selected, push, take, reset, add a result, or
leave the state as it is. -/
inductive Effect (i : Instr) (s : State) : State → Prop where
  /-- A STEP case that is not selected, or PUSH at a full buffer. -/
  | nothing (h : i.symbol ≠ none ∨ i.pushed ≠ []) : Effect i s s
  /-- The selected STEP case. -/
  | moves {b : Byte} {rest : Bytes} (hi : i.symbol = some b) (ho : s.fcr.out = none) (hb : s.fcr.buf = b :: rest) :
      Effect i s (s.moved rest (detectByte s.params s.fcr.mode s.fcr.cand b))
  | pushes {b : Byte} (hi : i = .push b) (h : canPush s = true) : Effect i s (s.accept b)
  | takes {f : Bytes} (hi : i = .take) (h : s.fcr.out = some f) :
      Effect i s ((s.withFcr { s.fcr with out := none }).answer (.frame f))
  | resets (hi : i = .reset) : Effect i s (s.withFcr Fcr.reset)
  /-- Any other host operation: one result, which no frame handed over. -/
  | answers (r : Result) (hi : i.symbol = none ∧ i.pushed = [] ∧ i ≠ .reset)
      (hr : ∀ f, r ≠ .frame f) : Effect i s (s.answer r)

/-- The move a selected case takes is the one the stream function takes. -/
theorem effect_of_detectorStep {i : Instr} {s : State} {mode : Mode} {b : Byte} {cond : Bool} {mv : Move}
    (hi : i.symbol = some b)
    (hmv : s.fcr.mode = mode → cond = true → mv = detectByte s.params s.fcr.mode s.fcr.cand b) :
    ∃ t, detectorStep s mode b cond mv = .next t ∧ Effect i s t := by
  rcases detectorStep_cases s mode b cond mv with h | ⟨rest, ho, hb, hm, hc, h⟩
  · exact ⟨s, h, .nothing (.inl (by simp [hi]))⟩
  · refine ⟨_, h, ?_⟩
    rw [hmv hm hc]
    exact .moves hi ho hb

theorem effect_of_deliver {i : Instr} {s : State} (r : Except ErrorKind Bytes)
    (hi : i.symbol = none ∧ i.pushed = [] ∧ i ≠ .reset) :
    Effect i s (deliver s r) := by
  cases r with
  | ok f => exact .answers (.built f) hi (by simp)
  | error e => exact .answers (.error e) hi (by simp)

/-- Everything an operation can do. -/
theorem exec_effect (i : Instr) (s : State) : ∃ t, exec i s = .next t ∧ Effect i s t := by
  cases i with
  | stepIdleStx => exact effect_of_detectorStep rfl (by intro h _; simp [detectByte, h])
  | stepIdleEtx => exact effect_of_detectorStep rfl (by intro h _; simp [detectByte, h])
  | stepIdleOther b =>
    exact effect_of_detectorStep rfl (by intro h hc; simp at hc; simp [detectByte, h, hc])
  | stepAccStx => exact effect_of_detectorStep rfl (by intro h _; simp [detectByte, h])
  | stepAccEtx =>
    exact effect_of_detectorStep rfl (by intro h hc; simp [candFull] at hc; simp [detectByte, h, hc])
  | stepAccOther b =>
    exact effect_of_detectorStep rfl (by intro h hc; simp [candFull] at hc; simp [detectByte, h, hc])
  | stepAccOverrun b =>
    refine effect_of_detectorStep rfl ?_
    intro h hc
    simp [candFull] at hc
    cases hb : classify b <;> simp_all [detectByte]
  | push b =>
    simp only [exec, execPush]
    split
    · exact ⟨_, rfl, .pushes rfl ‹_›⟩
    · exact ⟨_, rfl, .nothing (.inr (by simp [Instr.pushed]))⟩
  | checksum bytes extra =>
    cases bytes <;> exact ⟨_, rfl, .answers _ ⟨rfl, rfl, by simp⟩ (by simp)⟩
  | compose paNo frNo data => exact ⟨_, rfl, effect_of_deliver _ ⟨rfl, rfl, by simp⟩⟩
  | isvalid frame => exact ⟨_, rfl, .answers _ ⟨rfl, rfl, by simp⟩ (by simp)⟩
  | take =>
    simp only [exec, execTake]
    split
    · exact ⟨_, rfl, .takes rfl ‹_›⟩
    · exact ⟨_, rfl, .answers _ ⟨rfl, rfl, by simp⟩ (by simp)⟩
  | status => exact ⟨_, rfl, .answers _ ⟨rfl, rfl, by simp⟩ (by simp)⟩
  | reset => exact ⟨_, rfl, .resets rfl⟩
  | cmd4Reserved code => exact ⟨_, rfl, .answers _ ⟨rfl, rfl, by simp⟩ (by simp)⟩
  | frame paNo frNo data => exact ⟨_, rfl, effect_of_deliver _ ⟨rfl, rfl, by simp⟩⟩
  | ackFrame frNo => exact ⟨_, rfl, effect_of_deliver _ ⟨rfl, rfl, by simp⟩⟩
  | syncFrame => exact ⟨_, rfl, .answers _ ⟨rfl, rfl, by simp⟩ (by simp)⟩

/-- The inversion of `exec`: from an answer to what was done. -/
theorem effect_of_exec {i : Instr} {s t : State} (h : exec i s = .next t) : Effect i s t := by
  obtain ⟨t', h', e⟩ := exec_effect i s
  rw [h'] at h
  cases h
  exact e

end Sys2Proof.Machine
end

