-- ==== Sys2Proof/Laws/PerInstr.lean ====
section
/-! SUPPORT. Statements made once for each operation, as syntax. -/

namespace Sys2Proof.Laws.Channel

/-- An operation is encoded in the format of its row of spec/opcode_table.json, and so reaches the block on that format's
channel: no encoding of one agent's operation is another agent's (R192, R194). -/
def Statement (i : Instr) : Prop := (encode i).format = i.format

theorem stepIdleStx : Statement .stepIdleStx := rfl
theorem stepIdleEtx : Statement .stepIdleEtx := rfl
theorem stepIdleOther (b : Byte) : Statement (.stepIdleOther b) := rfl
theorem stepAccStx : Statement .stepAccStx := rfl
theorem stepAccEtx : Statement .stepAccEtx := rfl
theorem stepAccOther (b : Byte) : Statement (.stepAccOther b) := rfl
theorem stepAccOverrun (b : Byte) : Statement (.stepAccOverrun b) := rfl
theorem push (b : Byte) : Statement (.push b) := rfl
theorem checksum (bytes : Bytes) (extra : Option Bytes) : Statement (.checksum bytes extra) := by
  cases extra <;> rfl
theorem compose (paNo frNo data : Bytes) : Statement (.compose paNo frNo data) := rfl
theorem isvalid (frame : Bytes) : Statement (.isvalid frame) := rfl
theorem take : Statement .take := rfl
theorem status : Statement .status := rfl
theorem reset : Statement .reset := rfl
theorem cmd4Reserved (code : BitVec 4) : Statement (.cmd4Reserved code) := rfl
theorem frame (paNo frNo : Half) (data : Bytes) : Statement (.frame paNo frNo data) := rfl
theorem ackFrame (frNo : Half) : Statement (.ackFrame frNo) := rfl
theorem syncFrame : Statement .syncFrame := rfl

end Sys2Proof.Laws.Channel
end

