-- ==== Sys2Proof/Laws/Step.lean ====
section
/-! SUPPORT. What one step can do, said once. -/

namespace Sys2Proof.Machine

/-- A step that answers a next state either had no operation to run, and moved the environment on, or ran the operation
it decoded. -/
theorem step_cases {s t : State} (h : step s = .next t) :
    (fetchWord s = none ∧ nextInstr s = none ∧ t = advance s) ∨
      ∃ w i, fetchWord s = some w ∧ decode w = .ok i ∧ nextInstr s = some i ∧ exec i (advance s) = .next t ∧
        Effect i (advance s) t := by
  unfold step at h
  cases hw : fetchWord s with
  | none => simp [hw] at h; exact .inl ⟨rfl, by simp [nextInstr, hw], h.symm⟩
  | some w =>
    simp only [hw] at h
    cases hd : decode w with
    | error e => simp [hd] at h
    | ok i =>
      simp only [hd] at h
      exact .inr ⟨w, i, rfl, hd, by simp [nextInstr, hw, hd], h, effect_of_exec h⟩

/-- The detector's decoder gives a STEP case whose symbol is the byte it read. -/
theorem decodeSymbol_symbol (m : Mode) (full : Bool) (b : Byte) : (decodeSymbol m full b).symbol = some b := by
  unfold decodeSymbol
  split <;> (try split) <;> simp_all [Instr.symbol, classify_eq_stx, classify_eq_etx]

/-- An enabled STEP that is decoded and run takes the stream function's move. -/
theorem exec_decodeSymbol {s : State} {b : Byte} {rest : Bytes} (ho : s.fcr.out = none) (hb : s.fcr.buf = b :: rest) :
    exec (decodeSymbol s.fcr.mode (candFull s) b) s =
      .next (s.moved rest (detectByte s.params s.fcr.mode s.fcr.cand b)) := by
  have hstx : classify b = .stx → b = Config.stx := (classify_eq_stx b).1
  have hetx : classify b = .etx → b = Config.etx := (classify_eq_etx b).1
  cases hm : s.fcr.mode <;> cases hc : classify b <;> cases hf : candFull s <;>
    simp_all [decodeSymbol, exec, execStepIdleStx, execStepIdleEtx, execStepIdleOther, execStepAccStx,
      execStepAccEtx, execStepAccOther, execStepAccOverrun, detectorStep, detectByte, candFull]

end Sys2Proof.Machine
end

