-- ==== Sys2Proof/Tests/Slice0.lean ====
section
/-! SUPPORT. The model's own tests: ill-formed terms, words written out from `30_encoding.md`, single steps whose results are
those of `95_test_vectors.md`, and a witness for the hypotheses of each statement that has any. -/

namespace Sys2Proof.Tests

open Sys2Proof.Machine

/-- A block in the given state, with the given parameters, nothing placed around it. -/
def block (P : Params) (buf : Bytes) (mode : Mode) (cand : Bytes) (out : Option Bytes) : State :=
  { State.reset with params := P, fcr := ⟨buf, mode, cand, out⟩ }

/-- The vectors' parameters with another `CAND_MAX`. -/
def candMaxOf (n : Nat) : Params := { Params.recommended with candMax := .atMost n }

/-- The vectors' parameters with another `BUF_DEPTH`. -/
def bufDepthOf (n : Nat) : Params := { Params.recommended with bufDepth := .atMost n }

/-- What the block and its event output are after an operation. -/
def effect (o : Host.Outcome State Fault Refusal) : Option (Fcr × List Event) :=
  match o with
  | .next t => some (t.fcr, t.events)
  | .fault _ => none
  | .refused _ => none

/-- What the operations have returned. -/
def returned (o : Host.Outcome State Fault Refusal) : Option (List Result) :=
  match o with
  | .next t => some t.results
  | .fault _ => none
  | .refused _ => none

/-- V1, the sync frame. -/
def v1 : Bytes := [0x02#8, 0x01#8, 0x00#8, 0x01#8, 0x00#8, 0x01#8, 0x00#8, 0x00#8, 0x03#8, 0x03#8]

/-- V3, an ACK frame. -/
def v3 : Bytes := [0x02#8, 0x01#8, 0x00#8, 0x00#8, 0x00#8, 0x01#8, 0x00#8, 0x01#8, 0x06#8, 0x05#8, 0x03#8]

/-! ### Ill-formed terms, one for each check of WellFormed -/

theorem test_idle_other_is_not_stx : ¬ (Instr.stepIdleOther 0x02#8).WellFormed := by decide
theorem test_acc_other_is_not_etx : ¬ (Instr.stepAccOther 0x03#8).WellFormed := by decide
theorem test_overrun_is_not_stx : ¬ (Instr.stepAccOverrun 0x02#8).WellFormed := by decide
theorem test_reserved_is_not_take : ¬ (Instr.cmd4Reserved 0x4#4).WellFormed := by decide
theorem test_frame_is_not_the_sync_frame : ¬ (Instr.frame 0x0001#16 0x0001#16 []).WellFormed := by decide
theorem test_frame_is_not_an_ack : ¬ (Instr.frame 0x0000#16 0x0007#16 [0x06#8]).WellFormed := by decide
theorem test_frame_data_fits_its_count (paNo frNo : Half) (data : Bytes) (h : data.length = 65536) :
    ¬ (Instr.frame paNo frNo data).WellFormed := by
  simp [Instr.WellFormed, Instr.wellFormed, Config.maxData, h]

/-! ### Words written out from the spec -/

/-- R74, R75: `0x02` in `Idle`. -/
theorem test_decode_step_idle_stx : decode (.sym8 .idle false 0x02#8) = .ok .stepIdleStx := rfl
/-- R75: `0x02` in `Acc` resynchronises even a full candidate (V18o). -/
theorem test_decode_step_acc_stx : decode (.sym8 .acc true 0x02#8) = .ok .stepAccStx := rfl
/-- V8: VERSION is OTHER. -/
theorem test_decode_version_byte : decode (.sym8 .acc false 0x01#8) = .ok (.stepAccOther 0x01#8) := rfl
/-- V18n: an ETX at a full candidate is an overrun. -/
theorem test_decode_overrun : decode (.sym8 .acc true 0x03#8) = .ok (.stepAccOverrun 0x03#8) := rfl
theorem test_decode_idle_etx : decode (.sym8 .idle true 0x03#8) = .ok .stepIdleEtx := rfl
theorem test_decode_idle_other : decode (.sym8 .idle true 0x41#8) = .ok (.stepIdleOther 0x41#8) := rfl
theorem test_decode_acc_etx : decode (.sym8 .acc false 0x03#8) = .ok .stepAccEtx := rfl
/-- R130: the ingress byte is its own encoding. -/
theorem test_decode_push : decode (.byte8 0x02#8) = .ok (.push 0x02#8) := rfl
/-- R81: the codes as one-byte words of the table. -/
theorem test_decode_table_words :
    [0x1, 0x2, 0x3, 0x4, 0x5, 0x6, 0x7].map (decodeTableWord 8) =
      [some (.checksum [] none), some (.compose [] [] []), some (.isvalid []), some .take, some .status,
        some .reset, some (.cmd4Reserved 0x7#4)] := by decide
/-- R79: `02 01 00 01 00 01 00 00 03 03`, the first byte in the low bits. -/
theorem test_decode_sync_frame : decodeTableWord 80 0x03030000010001000102 = some .syncFrame := by decide
/-- R78: the ACK for FrNo `0x0001`. -/
theorem test_decode_ack_frame : decodeTableWord 88 0x0305060100010000000102 = some (.ackFrame 0x0001#16) := by
  decide
/-- V11c: PaNo `0x03E8`, FrNo `0x0001`, data `41`. -/
theorem test_decode_frame :
    decodeTableWord 88 0x03A941010001 = none ∧
      decode (.frame [0x02#8, 0x01#8, 0x03#8, 0xE8#8, 0x00#8, 0x01#8, 0x00#8, 0x01#8, 0x41#8, 0xA9#8, 0x03#8]) =
        .ok (.frame 0x03E8#16 0x0001#16 [0x41#8]) := ⟨by decide, rfl⟩
/-- V13i: a wrong checksum is rejected by name. -/
theorem test_decode_rejects_checksum :
    decode (.frame [0x02#8, 0x01#8, 0x00#8, 0x01#8, 0x00#8, 0x01#8, 0x00#8, 0x00#8, 0x07#8, 0x03#8]) =
      .error .frameChecksumMismatch := rfl
/-- V24: a length field of 4 over no data is rejected by name, though the detector emits it. -/
theorem test_decode_rejects_length :
    decode (.frame [0x02#8, 0x01#8, 0x00#8, 0x00#8, 0x00#8, 0x01#8, 0x00#8, 0x04#8, 0x06#8, 0x03#8]) =
      .error .frameLengthMismatch := rfl
/-- R130: all 256 values are legal at the ingress; one that is no select code, as a one-byte word. -/
theorem test_decode_ingress_word : decodeTableWord 8 0xAA = some (.push 0xAA#8) := by decide
/-- A placed word is the first operation that runs after reset, on the host's channel or at the ingress. -/
theorem test_fetch_word : nextInstr (State.reset.withFetchWord 8 0x5) = some .status ∧
    nextInstr (State.reset.withFetchWord 8 0xAA) = some (.push 0xAA#8) := by decide

/-! ### Single steps against the vectors -/

/-- V18a. -/
theorem test_v18a : effect (step (block Params.recommended [0x41#8, 0xAA#8] .idle [] none)) =
    some (⟨[0xAA#8], .idle, [], none⟩, [.noiseDiscard 0x41#8]) := by decide
/-- V18c. -/
theorem test_v18c : effect (step (block Params.recommended [0x03#8] .idle [] none)) =
    some (⟨[], .idle, [], none⟩, [.noiseDiscard 0x03#8]) := by decide
/-- V18d. -/
theorem test_v18d : effect (step (block Params.recommended [0x02#8] .idle [] none)) =
    some (⟨[], .acc, [0x02#8], none⟩, [.quiet]) := by decide
/-- V18f. -/
theorem test_v18f :
    effect (step (block Params.recommended [0x02#8] .acc [0x02#8, 0x01#8, 0x03#8, 0xE8#8, 0x00#8, 0x01#8, 0x00#8] none)) =
      some (⟨[], .acc, [0x02#8], none⟩,
        [.resyncDiscard [0x02#8, 0x01#8, 0x03#8, 0xE8#8, 0x00#8, 0x01#8, 0x00#8]]) := by decide
/-- V18g. -/
theorem test_v18g : effect (step (block Params.recommended [0x01#8] .acc [0x02#8] none)) =
    some (⟨[], .acc, [0x02#8, 0x01#8], none⟩, [.quiet]) := by decide
/-- V18i: resulting length 9, the largest that stays open. -/
theorem test_v18i : effect (step (block Params.recommended [0x03#8] .acc (v1.take 8) none)) =
    some (⟨[], .acc, v1.take 9, none⟩, [.quiet]) := by decide
/-- V18j: resulting length 10, the smallest that closes. -/
theorem test_v18j : effect (step (block Params.recommended [0x03#8] .acc (v1.take 9) none)) =
    some (⟨[], .idle, [], some v1⟩, [.frameEmitted v1]) := by decide
/-- V18k. -/
theorem test_v18k : effect (step (block Params.recommended [0x03#8] .acc (v1.take 8 ++ [0x07#8]) none)) =
    some (⟨[], .idle, [], none⟩, [.checksumDiscard (v1.take 8 ++ [0x07#8, 0x03#8])]) := by decide
/-- V28b: the bound is inclusive; with `CAND_MAX = 10` the eleventh byte is an overrun, with 11 it closes. -/
theorem test_v28b :
    effect (step (block (candMaxOf 10) [0x03#8] .acc (v3.take 10) none)) =
        some (⟨[], .idle, [], none⟩, [.candOverrun (v3.take 10) 0x03#8]) ∧
      effect (step (block (candMaxOf 11) [0x03#8] .acc (v3.take 10) none)) =
        some (⟨[], .idle, [], some v3⟩, [.frameEmitted v3]) := ⟨by decide, by decide⟩
/-- V18p: with a frame in `out` STEP is not enabled. -/
theorem test_v18p : effect (step (block Params.recommended [0x41#8] .idle [] (some v1))) =
    some (⟨[0x41#8], .idle, [], some v1⟩, []) := by decide
/-- V17c and V17d. -/
theorem test_v17 :
    effect (exec (.push 0x55#8) (block Params.recommended [] .idle [] (some v1))) =
        some (⟨[0x55#8], .idle, [], some v1⟩, []) ∧
      effect (exec (.push 0x00#8) (block (bufDepthOf 2) [0x02#8, 0x01#8] .idle [] none)) =
        some (⟨[0x02#8, 0x01#8], .idle, [], none⟩, []) := ⟨by decide, by decide⟩
/-- V10h and V10l. -/
theorem test_v10 :
    returned (exec (.checksum (v3.take 8) (some [0x06#8])) State.reset) = some [.checksum 0x05#8] ∧
      returned (exec (.checksum [] (some [0x06#8])) State.reset) = some [.error .emptyInput] := ⟨by decide, by decide⟩
/-- V2: the "AB" frame. -/
theorem test_v2 : returned (exec (.compose [0x03#8, 0xE8#8] [0x00#8, 0x01#8] [0x41#8, 0x42#8]) State.reset) =
    some [.built [0x02#8, 0x01#8, 0x03#8, 0xE8#8, 0x00#8, 0x01#8, 0x00#8, 0x02#8, 0x41#8, 0x42#8, 0xE8#8, 0x03#8]] := by
  decide
/-- V12b and V12f. -/
theorem test_v12 :
    returned (exec (.compose [0x00#8, 0x01#8] [0x00#8, 0x01#8, 0x02#8] []) State.reset) =
        some [.error .invalidAddress] ∧
      returned (exec (.compose [0x00#8, 0x00#8] [0x00#8, 0x01#8] [0x41#8, 0x03#8]) State.reset) =
        some [.error .unsupportedPayload] := ⟨by decide, by decide⟩
/-- V13c, V13d and V13j. -/
theorem test_v13 :
    validChecksum [0x00#8, 0x00#8] = false ∧ validChecksum [0x07#8, 0x07#8, 0x09#8] = true ∧
      validChecksum (v1.take 9 ++ [0xFF#8]) = true := ⟨by decide, by decide, by decide⟩
/-- V36c. -/
theorem test_v36c :
    effect (exec .take (block Params.recommended [0x00#8, 0x7E#8] .idle [] (some v1))) =
        some (⟨[0x00#8, 0x7E#8], .idle, [], none⟩, []) ∧
      returned (exec .take (block Params.recommended [0x00#8, 0x7E#8] .idle [] (some v1))) = some [.frame v1] :=
  ⟨by decide, by decide⟩
/-- V36h. -/
theorem test_v36h :
    returned (exec .status (block (bufDepthOf 4) [0x02#8, 0x01#8, 0x00#8, 0x00#8] .idle [] (some v1))) =
      some [.flags ⟨true, 10, false, true, false⟩] := by decide
/-- V36i. -/
theorem test_v36i : effect (exec .reset (block Params.recommended [0x41#8] .acc [0x02#8, 0x01#8] none)) =
    some (⟨[], .idle, [], none⟩, []) := by decide
/-- V36k. -/
theorem test_v36k :
    effect (exec (.cmd4Reserved 0xF#4) (block Params.recommended [0x41#8] .acc [0x02#8] none)) =
      some (⟨[0x41#8], .acc, [0x02#8], none⟩, []) := by decide
/-- V11c as the row FRAME. -/
theorem test_frame_row : returned (exec (.frame 0x03E8#16 0x0001#16 [0x41#8]) State.reset) =
    some [.built [0x02#8, 0x01#8, 0x03#8, 0xE8#8, 0x00#8, 0x01#8, 0x00#8, 0x01#8, 0x41#8, 0xA9#8, 0x03#8]] := by
  decide
/-- V3 and V1 as the rows ACKFRAME and SYNCFRAME. -/
theorem test_ack_and_sync_rows :
    returned (exec (.ackFrame 0x0001#16) State.reset) = some [.built v3] ∧
      returned (exec .syncFrame State.reset) = some [.built v1] := ⟨by decide, by decide⟩
/-- V21: the source's "AB" frame is not delivered and leaves `[02 41 42 E8 03]` open. -/
theorem test_v21 :
    runStream Params.recommended .idle []
        [0x02#8, 0x01#8, 0x03#8, 0xE8#8, 0x00#8, 0x01#8, 0x00#8, 0x02#8, 0x41#8, 0x42#8, 0xE8#8, 0x03#8] =
      ⟨.acc, [0x02#8, 0x41#8, 0x42#8, 0xE8#8, 0x03#8], [],
        [.quiet, .quiet, .quiet, .quiet, .quiet, .quiet, .quiet,
          .resyncDiscard [0x02#8, 0x01#8, 0x03#8, 0xE8#8, 0x00#8, 0x01#8, 0x00#8],
          .quiet, .quiet, .quiet, .quiet]⟩ := by decide

/-! ### Witnesses: for each statement with hypotheses, a state and operands that meet them, for each of its clauses -/

theorem witness_reset_parameters : (bufDepthOf 1).legal = true := by decide

/-- A candidate of one byte with more bytes waiting meets the invariants, and a step is taken from it. -/
theorem witness_invariants : (block (candMaxOf 10) [0x01#8] .acc [0x02#8] none).Inv ∧
    ∃ t, step (block (candMaxOf 10) [0x01#8] .acc [0x02#8] none) = .next t := by
  refine ⟨⟨by decide, by simp [Fcr.modeMatches, block, Config.stx], ?_, by simp [Fcr.outMatches, block],
    ⟨by decide, by decide⟩⟩, _, rfl⟩
  intro _
  constructor <;> intro i <;> cases i <;> simp [block, Config.etx]

theorem witness_push_last_place : (bufDepthOf 2).bufDepth.hasRoom [0x02#8].length = true := by decide
theorem witness_push_full : (bufDepthOf 2).bufDepth.hasRoom [0x02#8, 0x01#8].length = false := by decide

/-- R131: a chunk of two bytes at a buffer with one place left. -/
theorem test_pushn_fills_part_way :
    (pushN (block (bufDepthOf 2) [0x02#8] .idle [] none) [0x01#8, 0x03#8]).1.fcr.buf = [0x02#8, 0x01#8] ∧
      (pushN (block (bufDepthOf 2) [0x02#8] .idle [] none) [0x01#8, 0x03#8]).2 = [0x03#8] := by decide

/-- The source's turn, with room (depth 3) and without (depth 2). -/
theorem witness_source_turn (n : Nat) : ∃ s : State, turn s = .source ∧ s.env.incoming = 0x41#8 :: [] ∧
    s.params = bufDepthOf n ∧ s.fcr.buf.length = 2 :=
  ⟨{ block (bufDepthOf n) [0x02#8, 0x01#8] .idle [] none with
      env := { Env.quiet with incoming := [0x41#8], schedule := [.source] } }, rfl, rfl, rfl, rfl⟩

theorem witness_step_ready (m : Mode) (b : Byte) (c : Bytes) :
    StepReady (block Params.recommended [b, 0xAA#8] m c none) m b [0xAA#8] := ⟨rfl, rfl, rfl⟩
theorem witness_other_byte : classify 0x04#8 = .other ∧ classify 0x01#8 = .other ∧
    StepReady (block Params.recommended [0x04#8] .idle [] none) .idle 0x04#8 [] :=
  ⟨by decide, by decide, rfl, rfl, rfl⟩
theorem witness_append : StepReady (block (candMaxOf 10) [0x04#8] .acc (v1.take 9) none) .acc 0x04#8 [] ∧
    classify 0x04#8 = .other ∧ (candMaxOf 10).candMax.hasRoom (v1.take 9).length = true :=
  ⟨⟨rfl, rfl, rfl⟩, by decide, by decide⟩
/-- R138: a candidate that stays open at 9 bytes, one emitted and one discarded at 10. -/
theorem witness_etx_cases :
    (v1.take 8 ++ [Config.etx]).length = 9 ∧
      ((v1.take 9 ++ [Config.etx]).length = 10 ∧ validChecksum (v1.take 9 ++ [Config.etx]) = true) ∧
      ((v1.take 8 ++ [0x07#8] ++ [Config.etx]).length = 10 ∧
        validChecksum (v1.take 8 ++ [0x07#8] ++ [Config.etx]) = false) ∧
      StepReady (block (candMaxOf 10) [0x03#8] .acc (v1.take 9) none) .acc Config.etx [] ∧
      (candMaxOf 10).candMax.hasRoom (v1.take 9).length = true :=
  ⟨by decide, ⟨by decide, by decide⟩, ⟨by decide, by decide⟩, ⟨rfl, rfl, rfl⟩, by decide⟩
/-- R139: at the bound, with an ETX and with another byte; and, without a bound, a candidate being extended. -/
theorem witness_overrun :
    StepReady (block (candMaxOf 10) [0x03#8] .acc (v3.take 10) none) .acc 0x03#8 [] ∧ classify 0x03#8 ≠ .stx ∧
      classify 0x05#8 ≠ .stx ∧ (candMaxOf 10).candMax = .atMost (v3.take 10).length ∧
      ∃ s : State, s.params.candMax = .unbounded ∧ ∃ w, detectorWord s = some w :=
  ⟨⟨rfl, rfl, rfl⟩, by decide, by decide, rfl,
    block { Params.recommended with candMax := .unbounded } [0x05#8] .acc (v3.take 10) none, rfl, _, rfl⟩
/-- A case the mode does not select, and one that is not enabled because a frame waits. -/
theorem witness_unselected :
    (Instr.symbol .stepIdleStx ≠ none ∧
      ∀ w, detectorWord (block Params.recommended [0x02#8] .acc [0x02#8] none) = some w →
        decode w ≠ .ok .stepIdleStx) ∧
      detectorWord (block Params.recommended [0x02#8] .idle [] (some v1)) = none := by
  refine ⟨⟨by decide, ?_⟩, rfl⟩
  intro w h
  cases h
  simp [decode, decodeSymbol, block, classify, Config.stx]
theorem witness_detector_turn : turn (block Params.recommended [0x41#8] .idle [] none) = .detector ∧
    (block Params.recommended [0x41#8] .idle [] none).fcr.out = none ∧
    (block Params.recommended [0x41#8] .idle [] none).fcr.buf = 0x41#8 :: [] := ⟨rfl, rfl, rfl⟩
/-- The undisturbed detector: a block with three bytes and an empty schedule. -/
theorem witness_undisturbed : (block Params.recommended [0x41#8, 0x02#8, 0x01#8] .idle [] none).env.schedule = [] := rfl
theorem witness_checksum_operand : ([0x5A#8] : Bytes) ≠ [] := by decide
theorem witness_folds : xorFold [0x0F#8, 0xF0#8] = some 0xFF#8 ∧ xorFold [0x5A#8] = some 0x5A#8 ∧
    ([0x0F#8, 0xF0#8] : Bytes).Perm [0xF0#8, 0x0F#8] := ⟨rfl, rfl, List.Perm.swap _ _ _⟩
theorem witness_changed_byte : ([0x0F#8, 0xF0#8] : Bytes)[1]? = some 0xF0#8 := rfl
/-- COMPOSE's data at its bounds: for every count of bytes (0, 65535 and 65536 among them), that many without an ETX. -/
theorem witness_compose_data (n : Nat) : ∃ data : Bytes, data.length = n ∧ Config.etx ∉ data :=
  ⟨List.replicate n 0x20#8, List.length_replicate, fun h => absurd (List.eq_of_mem_replicate h) (by decide)⟩
/-- R104: an address of one byte; two good addresses with an ETX in the data, the parameter set and not set. -/
theorem witness_compose_failures :
    ([0x00#8] : Bytes).length ≠ 2 ∧ ([0x00#8, 0x00#8] : Bytes).length = 2 ∧ 0x03#8 ∈ ([0x41#8, 0x03#8] : Bytes) ∧
      Params.recommended.etxInDataFaults = true ∧
      ({ Params.recommended with etxInDataFaults := false } : Params).etxInDataFaults = false := by decide
theorem witness_isvalid_lengths : ([0x00#8, 0x00#8] : Bytes).length < 3 ∧ 3 ≤ ([0x07#8, 0x07#8, 0x09#8] : Bytes).length := by
  decide
theorem witness_codec : IsCodec (.isvalid v1) ∧ IsCodec .syncFrame ∧ State.reset.params = Params.recommended :=
  ⟨.inr (.inr (.inl ⟨v1, rfl⟩)), .inr (.inr (.inr rfl)), rfl⟩
theorem witness_out : (block Params.recommended [0x00#8] .idle [] (some v1)).fcr.out = some v1 ∧
    State.reset.fcr.out = none := ⟨rfl, rfl⟩
theorem witness_reset_turn : turn { State.reset with env := { Env.quiet with schedule := [.resetInput] } } = .resetInput :=
  rfl
theorem witness_reserved_codes : (0x0#4 : BitVec 4) = 0x0#4 ∧ 7 ≤ (0x7#4 : BitVec 4).toNat ∧ 7 ≤ (0xF#4 : BitVec 4).toNat := by
  decide
theorem witness_well_formed :
    (Instr.stepAccOverrun 0x03#8).WellFormed ∧ (Instr.cmd4Reserved 0x7#4).WellFormed ∧
      (Instr.frame 0x0000#16 0x0001#16 [0x02#8, 0x03#8]).WellFormed := by decide
theorem witness_decoded_frame : decode (.frame v3) = .ok (.ackFrame 0x0001#16) := rfl
theorem witness_decoded_byte : decode (.byte8 0xFF#8) = .ok (.push 0xFF#8) := rfl
/-- A step that decodes and runs, and one with nothing to run. -/
theorem witness_fetched : fetchWord (State.reset.withFetchWord 8 0x4) = some (.cmd4 0x4#4 []) ∧
    decode (.cmd4 0x4#4 []) = .ok .take ∧ fetchWord State.reset = none := ⟨rfl, rfl, rfl⟩
/-- A request that is no encoding: a wire frame without a header. -/
theorem witness_undecodable : ∃ r, step (State.reset.withFetchWord 16 0x0102) = .refused r := ⟨_, rfl⟩
theorem witness_executed : ∃ t, exec (.push 0x41#8) State.reset = .next t ∧
    exec (.push 0x41#8) { State.reset with events := [.quiet] } = .next { t with events := [.quiet] } := ⟨_, rfl, rfl⟩
/-- A detector's step and a source's step, neither a reset. -/
theorem witness_no_reset :
    (∃ t, step (block Params.recommended [0x41#8] .idle [] none) = .next t) ∧
      nextInstr (block Params.recommended [0x41#8] .idle [] none) ≠ some .reset := ⟨⟨_, rfl⟩, by decide⟩
theorem witness_tracks : (block Params.recommended [0x01#8] .acc [0x02#8] none).Tracks [0x41#8, 0x02#8] ∧
    nextInstr (block Params.recommended [0x01#8] .acc [0x02#8] none) = some (.stepAccOther 0x01#8) :=
  ⟨⟨rfl, rfl, rfl⟩, by decide⟩
/-- V35: frames at the least length and one byte longer; a bound equal to the length. -/
theorem witness_receivable : receivable (candMaxOf 10) v1 = true ∧ receivable Params.recommended v3 = true := by decide
theorem witness_emitted : v1 ∈ framesOf Params.recommended v1 := by decide
theorem witness_noise : Config.stx ∉ ([0xFF#8, 0x03#8, 0x41#8] : Bytes) ∧ Config.stx ∉ ([0x00#8, 0x7E#8] : Bytes) := by decide
/-- V26, V27, V27b, V27c: a checksum byte, and the values that replace it, in frames of 10 and 11 bytes. -/
theorem witness_corrupted_checksum :
    v3[v3.length - 2]? = some 0x05#8 ∧ classify 0x04#8 = .other ∧
      v1[v1.length - 2]? = some 0x03#8 ∧ Config.stx ≠ 0x05#8 ∧ Config.etx ≠ 0x05#8 ∧ 10 < v3.length ∧
      receivable Params.recommended
        [0x02#8, 0x01#8, 0x00#8, 0x04#8, 0x00#8, 0x01#8, 0x00#8, 0x01#8, 0x07#8, 0x00#8, 0x03#8] = true ∧
      receivable Params.recommended
        [0x02#8, 0x01#8, 0x00#8, 0x00#8, 0x00#8, 0x00#8, 0x00#8, 0x07#8, 0x04#8, 0x03#8] = true := by decide
theorem witness_composed_frame :
    xorFold ([0x02#8, 0x01#8, 0x00#8, 0x00#8, 0x00#8, 0x01#8, hi 1, lo 1] ++ [0x06#8]) = some 0x05#8 ∧
      Params.recommended.candMax.holds (1 + 10) = true := by decide
theorem witness_compose_result :
    composeResult Params.recommended [0x00#8, 0x00#8] [0x00#8, 0x01#8] [0x06#8] = .ok v3 := rfl
/-- R107: the first byte, the checksum byte and the last byte of V3. -/
theorem witness_corrupted_byte : 3 ≤ v3.length ∧ validChecksum v3 = true ∧ v3[0]? = some 0x02#8 ∧
    v3[9]? = some 0x05#8 ∧ 9 = v3.length - 2 ∧ v3[10]? = some 0x03#8 ∧ 10 = v3.length - 1 := by decide
theorem witness_shortest_checked : 3 ≤ ([0x07#8, 0x07#8, 0x03#8] : Bytes).length ∧
    ([0x07#8, 0x07#8, 0x03#8] : Bytes)[2]? = some 0x03#8 := by decide
/-- A GETFRAME with a frame waiting, one at its last poll, one with polls left. -/
theorem witness_get_frame (polls : Nat) (out : Option Bytes) : ∃ s : State, turn s = .host ∧
    s.env.requests = .getFrame polls :: [] ∧ s.fcr.out = out :=
  ⟨{ block Params.recommended [] .idle [] out with
      env := { Env.quiet with requests := [.getFrame polls], schedule := [.host] } }, rfl, rfl, rfl⟩

end Sys2Proof.Tests
end

/-! ## The detector's invariant (R25)

Items 1 to 4 of R25 and the candidate's bound of item 6 speak of the mode and the candidate alone, so the seven cases of
STEP are held to them once, as moves of `detectByte`. -/

namespace Sys2Proof.Machine

/-- What R25 says of the mode and the candidate: none is open, or one that is STX and a body in which no STX occurs and no
ETX from the index on at which an ETX would have closed it. -/
inductive DetectorInv (P : Params) : Mode → Bytes → Prop where
  | idle : DetectorInv P .idle []
  | acc {body : Bytes} (hstx : Config.stx ∉ body) (hetx : Config.etx ∉ body.drop 8)
      (hcap : P.candMax.holds (body.length + 1) = true) : DetectorInv P .acc (Config.stx :: body)

/-- A move after which R25 holds of the mode and the candidate, and whose frame, if any, is one to be emitted (item 5). -/
structure Move.Sound (P : Params) (mv : Move) : Prop where
  detector : DetectorInv P mv.mode mv.cand
  emitted : ∀ g, mv.emitted = some g → receivable P g = true

/-- A move that emits nothing is sound when the detector's invariant holds after it. -/
theorem Move.Sound.of_silent {P : Params} {m : Mode} {c : Bytes} {ev : Event} (h : DetectorInv P m c) :
    Move.Sound P ⟨m, c, none, ev⟩ := ⟨h, by simp⟩

/-! ### The invariant in the words of R25 -/

theorem holds_zero (c : Capacity) : c.holds 0 = true := by cases c <;> simp [Capacity.holds]

/-- Items 3 and 4 of R25 count positions in the candidate; past its first byte these are positions in the body. -/
theorem delimitersMatch_acc_iff (buf body : Bytes) (out : Option Bytes) :
    Fcr.delimitersMatch ⟨buf, .acc, Config.stx :: body, out⟩ ↔
      Config.stx ∉ body ∧ Config.etx ∉ body.drop 8 := by
  simp only [Fcr.delimitersMatch, true_imp_iff]
  refine and_congr ⟨fun h hmem => ?_, fun h i hi hget => ?_⟩ ⟨fun h hmem => ?_, fun h i hget => ?_⟩
  · obtain ⟨i, hi⟩ := List.mem_iff_getElem?.1 hmem
    exact h (i + 1) (by omega) (by simpa using hi)
  · obtain ⟨j, rfl⟩ : ∃ j, i = j + 1 := ⟨i - 1, by omega⟩
    exact h (List.mem_iff_getElem?.2 ⟨j, by simpa using hget⟩)
  · obtain ⟨i, hi⟩ := List.mem_iff_getElem?.1 hmem
    have := h (8 + i + 1) (by simpa using hi)
    omega
  · by_contra hi
    obtain ⟨j, rfl⟩ : ∃ j, i = 8 + j + 1 := ⟨i - 9, by omega⟩
    exact h (List.mem_iff_getElem?.2 ⟨j, by simpa using hget⟩)

/-- The detector's invariant is items 1 to 4 of R25 with the candidate's part of item 6. -/
theorem detectorInv_iff (P : Params) (f : Fcr) :
    DetectorInv P f.mode f.cand ↔
      f.modeMatches ∧ f.delimitersMatch ∧ P.candMax.holds f.cand.length = true := by
  obtain ⟨buf, mode, cand, out⟩ := f
  constructor
  · intro h
    cases h with
    | idle => exact ⟨by simp [Fcr.modeMatches], by simp [Fcr.delimitersMatch], holds_zero _⟩
    | acc hstx hetx hcap =>
      exact ⟨by simp [Fcr.modeMatches], (delimitersMatch_acc_iff _ _ _).2 ⟨hstx, hetx⟩, hcap⟩
  · rintro ⟨⟨hidle, hfirst⟩, hdel, hcap⟩
    cases mode with
    | idle =>
      obtain rfl : cand = [] := hidle.1 rfl
      exact .idle
    | acc =>
      obtain ⟨body, rfl⟩ : ∃ body, cand = Config.stx :: body :=
        List.head?_eq_some_iff.1 (List.head?_eq_getElem? ▸ hfirst rfl)
      obtain ⟨hstx, hetx⟩ := (delimitersMatch_acc_iff _ _ _).1 hdel
      exact .acc hstx hetx hcap

/-- The invariants of R25, store by store. -/
theorem inv_iff (s : State) :
    s.Inv ↔ s.params.legal = true ∧ DetectorInv s.params s.fcr.mode s.fcr.cand ∧
      s.fcr.outMatches s.params ∧ s.params.bufDepth.holds s.fcr.buf.length = true := by
  rw [detectorInv_iff]
  constructor
  · rintro ⟨hlegal, hmode, hdel, hout, hbuf, hcand⟩
    exact ⟨hlegal, ⟨hmode, hdel, hcand⟩, hout, hbuf⟩
  · rintro ⟨hlegal, ⟨hmode, hdel, hcand⟩, hout, hbuf⟩
    exact ⟨hlegal, hmode, hdel, hout, hbuf, hcand⟩

/-! ### Every case of STEP keeps it -/

section Moves

variable {P : Params} {body : Bytes}

theorem candMax_holds_of_legal {k : Nat} (h : P.legal = true) (hk : k ≤ 10) : P.candMax.holds k = true :=
  holds_of_atLeast (Bool.and_eq_true_iff.1 h).2 hk

/-- R135, R136: an opened candidate is the STX alone. -/
theorem detectorInv_opened (h : P.legal = true) : DetectorInv P .acc [Config.stx] :=
  .acc (by simp) (by simp) (candMax_holds_of_legal h (by simp))

/-- The candidate with one more byte other than STX keeps the invariant when that byte is no ETX from index 9 on. -/
theorem detectorInv_append {b : Byte} (h : DetectorInv P .acc (Config.stx :: body)) (hb : b ≠ Config.stx)
    (hetx : b = Config.etx → body.length < 8) (hroom : P.candMax.hasRoom (body.length + 1) = true) :
    DetectorInv P .acc (Config.stx :: body ++ [b]) := by
  obtain _ | ⟨hnoStx, hnoEtx, -⟩ := h
  refine .acc (body := body ++ [b]) ?_ ?_ (by simpa using hasRoom_holds hroom)
  · simpa [hnoStx] using Ne.symm hb
  · intro hmem
    rw [List.drop_append, List.mem_append] at hmem
    rcases hmem with hold | hnew
    · exact hnoEtx hold
    · have hlen : body.length < 8 := hetx (List.mem_singleton.1 (List.mem_of_mem_drop hnew)).symm
      rw [List.drop_eq_nil_of_le (by simp; omega)] at hnew
      exact List.not_mem_nil hnew

/-- A candidate that an ETX closes at 10 bytes or more, its checksum right, is receivable (items 3 to 5 of R25). -/
theorem receivable_closed (h : DetectorInv P .acc (Config.stx :: body))
    (hroom : P.candMax.hasRoom (body.length + 1) = true) (hlen : 10 ≤ (Config.stx :: body ++ [Config.etx]).length)
    (hvalid : validChecksum (Config.stx :: body ++ [Config.etx]) = true) :
    receivable P (Config.stx :: body ++ [Config.etx]) = true := by
  obtain _ | ⟨hnoStx, hnoEtx, -⟩ := h
  have hne : Config.stx ≠ Config.etx := by decide
  refine (receivable_iff P _).2 ⟨hlen, by simpa using hasRoom_holds hroom, by simp, by simp, hvalid, ?_, ?_⟩
  · simpa [hnoStx] using hne
  · simpa using hnoEtx

/-- R138: an ETX keeps the candidate open below 10 bytes and else closes it. -/
theorem closeOrKeep_sound (h : DetectorInv P .acc (Config.stx :: body))
    (hroom : P.candMax.hasRoom (body.length + 1) = true) : (closeOrKeep (Config.stx :: body)).Sound P := by
  by_cases hshort : (Config.stx :: body ++ [Config.etx]).length < 10
  · rw [closeOrKeep_short hshort]
    have hbody : body.length < 8 := by simp at hshort; omega
    exact .of_silent (detectorInv_append h (by decide) (fun _ => hbody) hroom)
  · by_cases hvalid : validChecksum (Config.stx :: body ++ [Config.etx]) = true
    · rw [closeOrKeep_emits hshort hvalid]
      refine ⟨.idle, ?_⟩
      rintro g ⟨⟩
      exact receivable_closed h hroom (not_lt.1 hshort) hvalid
    · rw [closeOrKeep_discards hshort hvalid]
      exact .of_silent .idle

/-- R137: a byte that is no delimiter is appended. -/
theorem extend_sound {b : Byte} (h : DetectorInv P .acc (Config.stx :: body)) (hb : classify b = .other)
    (hroom : P.candMax.hasRoom (body.length + 1) = true) : (extend (Config.stx :: body) b).Sound P := by
  obtain ⟨hstx, hetx⟩ := (classify_eq_other b).1 hb
  exact .of_silent (detectorInv_append h hstx (fun he => absurd he hetx) hroom)

end Moves

/-- R25 is kept by the case of STEP that the mode, the byte and the candidate's length select. -/
theorem detectByte_sound {P : Params} {m : Mode} {c : Bytes} (hlegal : P.legal = true) (h : DetectorInv P m c)
    (b : Byte) : (detectByte P m c b).Sound P := by
  have hopened := detectorInv_opened hlegal
  have hshape := h
  cases hshape with
  | idle =>
    cases hb : classify b <;> simp only [detectByte, hb]
    case stx => exact .of_silent hopened
    case etx | other => exact .of_silent .idle
  | acc =>
    cases hb : classify b <;> simp only [detectByte, hb]
    case stx => exact .of_silent hopened
    case etx =>
      split
      · exact closeOrKeep_sound h ‹_›
      · exact .of_silent .idle
    case other =>
      split
      · exact extend_sound h hb ‹_›
      · exact .of_silent .idle

end Sys2Proof.Machine

/-! ## Every operation and every step keep the invariants of R25 -/

namespace Sys2Proof.Machine

section

variable {i : Instr} {s t : State}

/-- What an operation does to a state that meets R25 gives one that meets it. -/
theorem Effect.keeps_inv (h : Effect i s t) (hs : s.Inv) : t.Inv := by
  obtain ⟨hlegal, hdet, hout, hbuf⟩ := (inv_iff s).1 hs
  rw [inv_iff]
  cases h with
  | nothing => exact ⟨hlegal, hdet, hout, hbuf⟩
  | @moves b rest _ _ hb =>
    obtain ⟨hdet', hemit⟩ := detectByte_sound hlegal hdet b
    exact ⟨hlegal, hdet', hemit, holds_mono hbuf (by simp [hb])⟩
  | pushes _ hroom =>
    have hfits := hasRoom_holds hroom
    exact ⟨hlegal, hdet, hout, by simpa using hfits⟩
  | takes => exact ⟨hlegal, hdet, by simp [Fcr.outMatches], hbuf⟩
  | resets => exact ⟨hlegal, .idle, by simp [Fcr.outMatches, Fcr.reset], holds_zero _⟩
  | answers => exact ⟨hlegal, hdet, hout, hbuf⟩

/-- The agent's turn changes the environment alone, of which R25 says nothing. -/
theorem advance_keeps_inv (hs : s.Inv) : (advance s).Inv := (inv_iff _).2 ((inv_iff s).1 hs)

end

/-- Settles O3: the agent's turn and the operation it runs both keep the invariants. -/
theorem everyStepKeepsTheInvariants : Obligations.EveryStepKeepsTheInvariants := by
  intro s t hs hstep
  rcases step_cases hstep with ⟨-, -, rfl⟩ | ⟨_, _, -, -, -, -, heffect⟩
  · exact advance_keeps_inv hs
  · exact heffect.keeps_inv (advance_keeps_inv hs)

end Sys2Proof.Machine

/-! ## The frame of every operation, store by store (R21 to R24, R33, R189) -/

namespace Sys2Proof.Machine

section

variable {i : Instr} {s t : State}

theorem Effect.params_eq (h : Effect i s t) : t.params = s.params := by cases h <;> rfl

theorem Effect.env_eq (h : Effect i s t) : t.env = s.env := by cases h <;> rfl

/-- Only a STEP outputs an event (R140). -/
theorem Effect.events_eq (h : Effect i s t) (hi : i.symbol = none) : t.events = s.events := by
  cases h with
  | moves hstep => simp [hi] at hstep
  | nothing | pushes | takes | resets | answers => rfl

/-- A STEP returns no result to the host. -/
theorem Effect.results_eq (h : Effect i s t) (hi : i.symbol ≠ none) : t.results = s.results := by
  cases h with
  | takes htake => simp [htake, Instr.symbol] at hi
  | answers _ hhost => exact absurd hhost.1 hi
  | nothing | moves | pushes | resets => rfl

/-- R21: `buf` is written by STEP, PUSH and RESET only. -/
theorem Effect.buf_eq (h : Effect i s t) (hi : i.symbol = none) (hpush : i.pushed = []) (hreset : i ≠ .reset) :
    t.fcr.buf = s.fcr.buf := by
  cases h with
  | moves hstep => simp [hi] at hstep
  | pushes hp => simp [hp, Instr.pushed] at hpush
  | resets hr => exact absurd hr hreset
  | nothing | takes | answers => rfl

/-- R22, R23: the mode and the candidate are written by STEP and RESET only. -/
theorem Effect.mode_cand_eq (h : Effect i s t) (hi : i.symbol = none) (hreset : i ≠ .reset) :
    t.fcr.mode = s.fcr.mode ∧ t.fcr.cand = s.fcr.cand := by
  cases h with
  | moves hstep => simp [hi] at hstep
  | resets hr => exact absurd hr hreset
  | nothing | pushes | takes | answers => exact ⟨rfl, rfl⟩

/-- R24: `out` is written by STEP, TAKE and RESET only. -/
theorem Effect.out_eq (h : Effect i s t) (hi : i.symbol = none) (htake : i ≠ .take) (hreset : i ≠ .reset) :
    t.fcr.out = s.fcr.out := by
  cases h with
  | moves hstep => simp [hi] at hstep
  | takes ht => exact absurd ht htake
  | resets hr => exact absurd hr hreset
  | nothing | pushes | answers => rfl

end

/-- Settles O44: the frame lemmas above, for what `exec` can do. -/
theorem onlyTheNamedOperationsWriteEachStore : Obligations.OnlyTheNamedOperationsWriteEachStore := by
  intro i s t hexec
  have h : Effect i s t := effect_of_exec hexec
  exact ⟨h.params_eq, h.env_eq, h.events_eq, h.results_eq, h.buf_eq, h.mode_cand_eq, h.out_eq⟩

end Sys2Proof.Machine

/-! ## The codec (R30) -/

namespace Sys2Proof.Machine

/-- The operation answers one result in every state with the parameters `P`, and does nothing else. -/
def AnswersUnder (P : Params) (i : Instr) : Prop :=
  ∃ r : Result, ∀ s : State, s.params = P → exec i s = .next (s.answer r)

/-- An operation that delivers a frame fixed by its operands and the parameters answers one result. -/
theorem answersUnder_of_deliver {P : Params} {i : Instr} (result : Params → Except ErrorKind Bytes)
    (h : ∀ s, exec i s = .next (deliver s (result s.params))) : AnswersUnder P i := by
  obtain ⟨r, -, hr⟩ := deliver_eq_answer State.reset (result P)
  exact ⟨r, fun s hs => by rw [h, hs, hr]⟩

theorem answersUnder_checksum (P : Params) (bytes : Bytes) (extra : Option Bytes) :
    AnswersUnder P (.checksum bytes extra) := by
  cases bytes with
  | nil => exact ⟨.error .emptyInput, fun _ _ => rfl⟩
  | cons b rest => exact ⟨.checksum (xorOnto b (rest ++ extra.getD [])), fun _ _ => rfl⟩

theorem answersUnder_compose (P : Params) (paNo frNo data : Bytes) : AnswersUnder P (.compose paNo frNo data) :=
  answersUnder_of_deliver (composeResult · paNo frNo data) fun _ => rfl

theorem answersUnder_isvalid (P : Params) (f : Bytes) : AnswersUnder P (.isvalid f) :=
  ⟨.valid (validChecksum f), fun _ _ => rfl⟩

/-- The three rows of format FRAME. -/
theorem answersUnder_of_format_frame (P : Params) {i : Instr} (hi : i.format = .frame) : AnswersUnder P i := by
  cases i with
  | frame paNo frNo data => exact answersUnder_of_deliver (fun _ => _) fun _ => rfl
  | ackFrame frNo => exact answersUnder_of_deliver (composeResult · _ _ _) fun _ => rfl
  | syncFrame => exact ⟨.built syncBytes, fun _ _ => rfl⟩
  | _ => cases hi

/-- Settles O24, operation by operation. -/
theorem codecOperationsTouchNoState : Obligations.CodecOperationsTouchNoState := by
  rintro i P (⟨bytes, extra, rfl⟩ | ⟨paNo, frNo, data, rfl⟩ | ⟨f, rfl⟩ | hframe)
  · exact answersUnder_checksum P bytes extra
  · exact answersUnder_compose P paNo frNo data
  · exact answersUnder_isvalid P f
  · exact answersUnder_of_format_frame P hframe

end Sys2Proof.Machine

/-! ## The state after reset (R32) -/

namespace Sys2Proof.Machine

/-- R28: an empty buffer of a legal capacity is not full. -/
theorem bufDepth_not_isReached_zero {P : Params} (h : P.legal = true) : P.bufDepth.isReached 0 = false := by
  have hdepth : P.bufDepth.atLeast 1 = true := (Bool.and_eq_true_iff.1 h).1
  cases hc : P.bufDepth with
  | unbounded => rfl
  | atMost n =>
    have hn : 1 ≤ n := by simpa [hc, Capacity.atLeast] using hdepth
    simp only [Capacity.isReached, decide_eq_false_iff_not]
    omega

/-- R32: the flags of an empty block. -/
theorem flags_reset {P : Params} (h : P.legal = true) : Fcr.reset.flags P = ⟨false, 0, true, false, false⟩ := by
  have hfull := bufDepth_not_isReached_zero h
  simpa [Fcr.flags, Fcr.frameLen, Fcr.reset] using hfull

/-- Settles O1: the stores and the constants are the table's own, the flags follow from the empty stores. -/
theorem resetLeavesTheStoresEmpty : Obligations.ResetLeavesTheStoresEmpty :=
  ⟨rfl, fun _ h => flags_reset h, rfl, rfl, rfl, rfl, rfl, rfl, rfl, rfl⟩

/-- Settles O2: the parameters are legal and every store is empty. -/
theorem invariantsHoldAtReset : Obligations.InvariantsHoldAtReset :=
  (inv_iff State.reset).2 ⟨by decide, .idle, by simp [Fcr.outMatches, State.reset, Fcr.reset], holds_zero _⟩

end Sys2Proof.Machine

/-! ## What reaches the block in one step, agent by agent (R192, R194) -/

namespace Sys2Proof

/-- An operation that is no STEP case consumes no byte (R132). -/
theorem Instr.symbol_eq_none_of_format {i : Instr} (h : i.format ≠ .sym8) : i.symbol = none := by
  cases i with
  | stepIdleStx | stepIdleEtx | stepIdleOther | stepAccStx | stepAccEtx | stepAccOther | stepAccOverrun =>
    exact absurd rfl h
  | _ => rfl

/-- An operation that is no PUSH accepts no byte (R130). -/
theorem Instr.pushed_eq_nil_of_format {i : Instr} (h : i.format ≠ .byte8) : i.pushed = [] := by
  cases i with
  | push => exact absurd rfl h
  | _ => rfl

theorem decodeSymbol_format (m : Mode) (full : Bool) (b : Byte) : (decodeSymbol m full b).format = .sym8 := by
  cases m <;> cases hb : classify b <;> cases full <;> simp only [decodeSymbol, hb] <;> rfl

theorem decodeCommand_format {code : BitVec 4} {operands : List Bytes} {i : Instr}
    (h : decodeCommand code operands = .ok i) : i.format = .cmd4 := by
  unfold decodeCommand decodeChecksum decodeCompose decodeIsvalid noOperands at h
  split at h
  case h_7 =>
    cases h
    rfl
  all_goals
    split at h <;> cases h
    all_goals rfl

theorem nameFrame_format (paNo frNo : Half) (data : Bytes) : (nameFrame paNo frNo data).format = .frame := by
  unfold nameFrame
  split_ifs <;> rfl

theorem decodeFrame_format {f : Bytes} {i : Instr} (h : decodeFrame f = .ok i) : i.format = .frame := by
  unfold decodeFrame at h
  split at h
  · split_ifs at h
    split at h
    · split_ifs at h
      cases h
      exact nameFrame_format _ _ _
    · cases h
  · cases h

/-- A decoded operation belongs to the channel its encoding came on (R192, R194). -/
theorem decode_format {w : Encoded} {i : Instr} (h : decode w = .ok i) : i.format = w.format := by
  cases w with
  | sym8 m full b =>
    cases h
    exact decodeSymbol_format m full b
  | byte8 b =>
    cases h
    rfl
  | cmd4 code operands => exact decodeCommand_format h
  | frame bytes => exact decodeFrame_format h

end Sys2Proof

namespace Sys2Proof.Machine

/-- The detector's channel carries the head of `buf` when STEP is enabled (R132). -/
theorem detectorWord_eq_some {s : State} {w : Encoded} (h : detectorWord s = some w) :
    ∃ b rest, s.fcr.out = none ∧ s.fcr.buf = b :: rest ∧ w = .sym8 s.fcr.mode (candFull s) b := by
  unfold detectorWord at h
  split at h
  · rename_i b rest hout hbuf
    cases h
    exact ⟨b, rest, hout, hbuf, rfl⟩
  · cases h

/-- The source's channel carries a byte when PUSH is enabled (R130). -/
theorem sourceWord_eq_some {s : State} {w : Encoded} (h : sourceWord s = some w) :
    ∃ b, canPush s = true ∧ w = .byte8 b := by
  unfold sourceWord at h
  split at h
  · split_ifs at h with hroom
    cases h
    exact ⟨_, hroom, rfl⟩
  · cases h

/-- Nothing the host asks for is a stream symbol or an ingress byte. -/
theorem Request.encoded_format (r : Request) : r.encoded.format ≠ .sym8 ∧ r.encoded.format ≠ .byte8 := by
  cases r <;> exact ⟨nofun, nofun⟩

theorem hostWord_format {s : State} {w : Encoded} (h : hostWord s = some w) :
    w.format ≠ .sym8 ∧ w.format ≠ .byte8 := by
  unfold hostWord at h
  split at h
  · cases h
    exact Request.encoded_format _
  · cases h

/-- What a step fetches: the symbol of an enabled STEP, the byte of an enabled PUSH, or a word on the host's channel. -/
theorem fetchWord_cases {s : State} {w : Encoded} (h : fetchWord s = some w) :
    (∃ b rest, s.fcr.out = none ∧ s.fcr.buf = b :: rest ∧ w = .sym8 s.fcr.mode (candFull s) b) ∨
      (∃ b, canPush s = true ∧ w = .byte8 b) ∨ (w.format ≠ .sym8 ∧ w.format ≠ .byte8) := by
  unfold fetchWord at h
  split at h
  · exact .inr (.inl (sourceWord_eq_some h))
  · exact .inl (detectorWord_eq_some h)
  · exact .inr (.inr (hostWord_format h))
  · cases h
    exact .inr (.inr ⟨nofun, nofun⟩)

/-- What one step does, agent by agent. A STEP or a PUSH that is fetched is enabled, so it never leaves the block as it
was. -/
inductive StepKind (s : State) : State → Prop where
  /-- The agent whose turn it is has no enabled operation. -/
  | idles (hi : nextInstr s = none) : StepKind s (advance s)
  /-- The detector consumes the head of `buf` (R132). -/
  | consumes {b : Byte} {rest : Bytes} (ho : s.fcr.out = none) (hb : s.fcr.buf = b :: rest)
      (hi : nextInstr s = some (decodeSymbol s.fcr.mode (candFull s) b)) :
      StepKind s ((advance s).moved rest (detectByte s.params s.fcr.mode s.fcr.cand b))
  /-- The source pushes a byte for which there is room (R130). -/
  | accepts {b : Byte} (hroom : canPush s = true) (hi : nextInstr s = some (.push b)) :
      StepKind s ((advance s).accept b)
  /-- The host, or the reset input, runs an operation that is neither STEP nor PUSH. -/
  | serves {i : Instr} {t : State} (hi : nextInstr s = some i) (hsym : i.symbol = none) (hpush : i.pushed = [])
      (heffect : Effect i (advance s) t) : StepKind s t

/-- R130, with room. -/
theorem exec_push_of_canPush {s : State} {b : Byte} (h : canPush s = true) :
    exec (.push b) s = .next (s.accept b) := if_pos h

/-- The inversion of `step` by agent. -/
theorem stepKind_of_step {s t : State} (h : step s = .next t) : StepKind s t := by
  rcases step_cases h with ⟨-, hi, rfl⟩ | ⟨w, i, hw, hd, hi, hexec, heffect⟩
  · exact .idles hi
  · rcases fetchWord_cases hw with ⟨b, rest, ho, hb, rfl⟩ | ⟨b, hroom, rfl⟩ | ⟨hsym, hbyte⟩
    · cases hd
      have hrun := exec_decodeSymbol (s := advance s) ho hb
      cases hrun.symm.trans hexec
      exact .consumes ho hb hi
    · cases hd
      cases (exec_push_of_canPush (s := advance s) hroom).symm.trans hexec
      exact .accepts hroom hi
    · rw [← decode_format hd] at hsym hbyte
      exact .serves hi (Instr.symbol_eq_none_of_format hsym) (Instr.pushed_eq_nil_of_format hbyte) heffect

end Sys2Proof.Machine

/-! ## The order of the bytes in `buf` (R60) -/

namespace Sys2Proof.Machine

section

variable {s : State} {i : Instr}

theorem consumedNext_of_none (h : nextInstr s = none) : consumedNext s = [] := by simp [consumedNext, h]

theorem acceptedNext_of_none (h : nextInstr s = none) : acceptedNext s = [] := by simp [acceptedNext, h]

theorem consumedNext_of_some (h : nextInstr s = some i) : consumedNext s = i.symbol.toList := by
  simp [consumedNext, h]

theorem acceptedNext_of_some (h : nextInstr s = some i) : acceptedNext s = i.pushed := by simp [acceptedNext, h]

end

/-- Settles O46, agent by agent: the detector takes the head of `buf`, the source adds at its tail, and no other operation
but a reset writes it. -/
theorem bytesLeaveInTheOrderPushed : Obligations.BytesLeaveInTheOrderPushed := by
  intro s t hstep hreset
  cases stepKind_of_step hstep with
  | idles hi => simp [consumedNext_of_none hi, acceptedNext_of_none hi]
  | @consumes b rest _ hb hi =>
    have hpush : (decodeSymbol s.fcr.mode (candFull s) b).pushed = [] :=
      Instr.pushed_eq_nil_of_format (by simp [decodeSymbol_format])
    simp [consumedNext_of_some hi, acceptedNext_of_some hi, decodeSymbol_symbol, hpush, hb]
  | accepts _ hi => simp [consumedNext_of_some hi, acceptedNext_of_some hi, Instr.symbol, Instr.pushed]
  | @serves i _ hi hsym hpush heffect =>
    have hbuf : t.fcr.buf = s.fcr.buf := heffect.buf_eq hsym hpush fun h => hreset (h ▸ hi)
    simp [consumedNext_of_some hi, acceptedNext_of_some hi, hsym, hpush, hbuf]

end Sys2Proof.Machine

/-! ## The fields of a frame (R53, R70) -/

namespace Sys2Proof

theorem be16_le (h l : Byte) : be16 h l ≤ 65535 := by
  have hh := h.isLt
  have hl := l.isLt
  simp only [be16]
  omega

theorem hi_be16 (h l : Byte) : hi (be16 h l) = h := by
  have hl := l.isLt
  rw [hi, be16, show (256 * h.toNat + l.toNat) / 256 = h.toNat by omega, BitVec.ofNat_toNat, BitVec.setWidth_eq]

theorem lo_be16 (h l : Byte) : lo (be16 h l) = l := by
  have hl := l.isLt
  rw [lo, be16, show (256 * h.toNat + l.toNat) % 256 = l.toNat by omega, BitVec.ofNat_toNat, BitVec.setWidth_eq]

theorem toNat_joinHalf (h l : Byte) : (joinHalf h l).toNat = be16 h l := by
  have hl := l.isLt
  rw [joinHalf, BitVec.toNat_append, ← Nat.shiftLeft_add_eq_or_of_lt hl, Nat.shiftLeft_eq, be16, Nat.mul_comm]

/-- Every 16-bit field is spelled by two bytes (R53). -/
theorem exists_joinHalf (x : Half) : ∃ h l, joinHalf h l = x := ⟨_, _, joinHalf_halfBytes x⟩

/-- The layout of R70, byte by byte. -/
theorem frameBytes_fields (p0 p1 f0 f1 : Byte) (data : Bytes) :
    frameBytes [p0, p1] [f0, f1] data =
      Config.stx :: Config.version :: p0 :: p1 :: f0 :: f1 :: hi data.length :: lo data.length ::
        (data ++ [xorOnto Config.stx
          (Config.version :: p0 :: p1 :: f0 :: f1 :: hi data.length :: lo data.length :: data), Config.etx]) := rfl

/-- The bytes `f` are the frame of R70 that carries `data` between the two addresses. -/
def SpellsFrame (f : Bytes) (paNo frNo : Half) (data : Bytes) : Prop :=
  data.length ≤ 65535 ∧ f = frameBytes (halfBytes paNo) (halfBytes frNo) data

section Fields

variable {p0 p1 f0 f1 l0 l1 : Byte} {data : Bytes}

theorem spellsFrame_of_fields (h : be16 l0 l1 = data.length) :
    SpellsFrame (Config.stx :: Config.version :: p0 :: p1 :: f0 :: f1 :: l0 :: l1 ::
        (data ++ [xorOnto Config.stx (Config.version :: p0 :: p1 :: f0 :: f1 :: l0 :: l1 :: data), Config.etx]))
      (joinHalf p0 p1) (joinHalf f0 f1) data := by
  refine ⟨h ▸ be16_le l0 l1, ?_⟩
  rw [halfBytes_joinHalf, halfBytes_joinHalf, frameBytes_fields, ← h, hi_be16, lo_be16]

/-- The fields of a frame's bytes. -/
theorem SpellsFrame.exists_fields {f : Bytes} {paNo frNo : Half} (h : SpellsFrame f paNo frNo data) :
    ∃ p0 p1 f0 f1 l0 l1, joinHalf p0 p1 = paNo ∧ joinHalf f0 f1 = frNo ∧ be16 l0 l1 = data.length ∧
      f = Config.stx :: Config.version :: p0 :: p1 :: f0 :: f1 :: l0 :: l1 ::
        (data ++ [xorOnto Config.stx (Config.version :: p0 :: p1 :: f0 :: f1 :: l0 :: l1 :: data), Config.etx]) := by
  obtain ⟨hlen, rfl⟩ := h
  obtain ⟨p0, p1, rfl⟩ := exists_joinHalf paNo
  obtain ⟨f0, f1, rfl⟩ := exists_joinHalf frNo
  refine ⟨p0, p1, f0, f1, _, _, rfl, rfl, be16_hi_lo hlen, ?_⟩
  rw [halfBytes_joinHalf, halfBytes_joinHalf, frameBytes_fields]

/-- `WellFormed` of ten bytes or more, field by field (R83). -/
theorem frameWellFormed_fields {s v chk e : Byte} :
    frameWellFormed (s :: v :: p0 :: p1 :: f0 :: f1 :: l0 :: l1 :: (data ++ [chk, e])) = true ↔
      s = Config.stx ∧ v = Config.version ∧ be16 l0 l1 = data.length ∧
        chk = xorOnto s (v :: p0 :: p1 :: f0 :: f1 :: l0 :: l1 :: data) ∧ e = Config.etx := by
  simp [frameWellFormed, Config.minFrame, and_assoc]

/-- A list of ten or more bytes is a header of eight, some data and two bytes more. -/
theorem exists_fields_of_length {f : Bytes} (h : 10 ≤ f.length) :
    ∃ s v p0 p1 f0 f1 l0 l1 data chk e,
      f = s :: v :: p0 :: p1 :: f0 :: f1 :: l0 :: l1 :: (data ++ [chk, e]) := by
  match f with
  | s :: v :: p0 :: p1 :: f0 :: f1 :: l0 :: l1 :: rest =>
    have htwo : (rest.drop (rest.length - 2)).length = 2 := by
      simp only [List.length_cons] at h
      rw [List.length_drop]
      omega
    obtain ⟨chk, e, htail⟩ := List.length_eq_two.1 htwo
    exact ⟨s, v, p0, p1, f0, f1, l0, l1, rest.take (rest.length - 2), chk, e,
      by rw [← htail, List.take_append_drop]⟩
  | [] | [_] | [_, _] | [_, _, _] | [_, _, _, _] | [_, _, _, _, _] | [_, _, _, _, _, _] | [_, _, _, _, _, _, _] =>
    simp at h

end Fields

variable {f : Bytes} {i : Instr}

/-- R83: the sequences that are `WellFormed` are the frames of R70. -/
theorem frameWellFormed_iff : frameWellFormed f = true ↔ ∃ paNo frNo data, SpellsFrame f paNo frNo data := by
  constructor
  · intro h
    have hmin : 10 ≤ f.length := by
      simp only [frameWellFormed, Bool.and_eq_true, and_assoc] at h
      exact of_decide_eq_true h.1
    obtain ⟨s, v, p0, p1, f0, f1, l0, l1, data, chk, e, rfl⟩ := exists_fields_of_length hmin
    obtain ⟨rfl, rfl, hlen, rfl, rfl⟩ := frameWellFormed_fields.1 h
    exact ⟨_, _, _, spellsFrame_of_fields hlen⟩
  · rintro ⟨paNo, frNo, data, h⟩
    obtain ⟨p0, p1, f0, f1, l0, l1, -, -, hlen, rfl⟩ := h.exists_fields
    exact frameWellFormed_fields.2 ⟨rfl, rfl, hlen, rfl, rfl⟩

/-- The decoder reads back the fields a frame spells. -/
theorem decodeFrame_of_spells {paNo frNo : Half} {data : Bytes} (h : SpellsFrame f paNo frNo data) :
    decodeFrame f = .ok (nameFrame paNo frNo data) := by
  obtain ⟨p0, p1, f0, f1, l0, l1, rfl, rfl, hlen, rfl⟩ := h.exists_fields
  simp [decodeFrame, hlen]

/-- What the frame decoder accepts is a frame of R70, and it gives the row that names it. -/
theorem spells_of_decodeFrame (h : decodeFrame f = .ok i) :
    ∃ paNo frNo data, SpellsFrame f paNo frNo data ∧ i = nameFrame paNo frNo data := by
  unfold decodeFrame at h
  split at h
  case h_2 => cases h
  case h_1 s v p0 p1 f0 f1 l0 l1 rest =>
    split_ifs at h with hs hv
    split at h
    case h_2 => cases h
    case h_1 chk e htail =>
      split_ifs at h with hchk he
      cases h
      obtain rfl := not_not.1 hs
      obtain rfl := not_not.1 hv
      obtain rfl := not_not.1 hchk
      obtain rfl := not_not.1 he
      have hlen : be16 l0 l1 = (rest.take (be16 l0 l1)).length := by
        have htwo := congrArg List.length htail
        simp only [List.length_drop, List.length_cons, List.length_nil] at htwo
        rw [List.length_take]
        omega
      have hspells := spellsFrame_of_fields (p0 := p0) (p1 := p1) (f0 := f0) (f1 := f1) hlen
      rw [← htail, List.take_append_drop] at hspells
      exact ⟨_, _, _, hspells, rfl⟩

end Sys2Proof

/-! ## The rows of format FRAME (R70, R78, R79) -/

namespace Sys2Proof

section

variable {paNo frNo : Half} {data : Bytes}

theorem hasOwnFrameRow_iff : hasOwnFrameRow paNo frNo data = true ↔
    (paNo = 0x0000#16 ∧ data = [Config.ack]) ∨ (paNo = 0x0001#16 ∧ frNo = 0x0001#16 ∧ data = []) := by
  simp only [hasOwnFrameRow, Bool.or_eq_true, Bool.and_eq_true, beq_iff_eq, and_assoc]

theorem frame_wellFormed_iff :
    (Instr.frame paNo frNo data).WellFormed ↔ data.length ≤ 65535 ∧ ¬ hasOwnFrameRow paNo frNo data = true := by
  rw [Instr.WellFormed, Instr.wellFormed, Bool.and_eq_true, decide_eq_true_iff, Bool.not_eq_true', Bool.not_eq_true]
  rfl

/-- A frame that no more specific row names is of the row FRAME. -/
theorem nameFrame_of_not_hasOwnFrameRow (h : ¬ hasOwnFrameRow paNo frNo data = true) :
    nameFrame paNo frNo data = .frame paNo frNo data := by
  rw [hasOwnFrameRow_iff, not_or] at h
  rw [nameFrame, if_neg h.2, if_neg h.1]

theorem nameFrame_wellFormed (h : data.length ≤ 65535) : (nameFrame paNo frNo data).WellFormed := by
  unfold nameFrame
  split_ifs with hsync hack
  · rfl
  · rfl
  · rw [frame_wellFormed_iff, hasOwnFrameRow_iff]
    exact ⟨h, not_or.2 ⟨hack, hsync⟩⟩

end

/-- The row that names a frame spells its bytes. -/
theorem encode_nameFrame (paNo frNo : Half) (data : Bytes) :
    encode (nameFrame paNo frNo data) = .frame (frameBytes (halfBytes paNo) (halfBytes frNo) data) := by
  unfold nameFrame
  split_ifs with hsync hack
  · obtain ⟨rfl, rfl, rfl⟩ := hsync
    rfl
  · obtain ⟨rfl, rfl⟩ := hack
    rfl
  · rfl

/-- A frame's bytes decode to the row that names them. -/
theorem decode_encode_nameFrame {data : Bytes} (h : data.length ≤ 65535) (paNo frNo : Half) :
    decode (encode (nameFrame paNo frNo data)) = .ok (nameFrame paNo frNo data) := by
  rw [encode_nameFrame]
  exact decodeFrame_of_spells ⟨h, rfl⟩

/-- A well-formed operation of format FRAME is the row that names some frame. -/
theorem exists_nameFrame_of_wellFormed {i : Instr} (hi : i.format = .frame) (hwf : i.WellFormed) :
    ∃ paNo frNo data, data.length ≤ 65535 ∧ nameFrame paNo frNo data = i := by
  cases i with
  | frame paNo frNo data =>
    obtain ⟨hlen, hrow⟩ := frame_wellFormed_iff.1 hwf
    exact ⟨paNo, frNo, data, hlen, nameFrame_of_not_hasOwnFrameRow hrow⟩
  | ackFrame frNo => exact ⟨0x0000#16, frNo, [Config.ack], by simp, rfl⟩
  | syncFrame => exact ⟨0x0001#16, 0x0001#16, [], by simp, rfl⟩
  | _ => cases hi

end Sys2Proof

/-! ## The select codes (R81) -/

namespace Sys2Proof

theorem isReservedCode_iff (code : BitVec 4) : isReservedCode code = true ↔ code.toNat = 0 ∨ 7 ≤ code.toNat := by
  simp [isReservedCode, ← BitVec.toNat_inj]

/-- A code without a meaning takes any operands. -/
theorem decodeCommand_of_reserved {code : BitVec 4} (h : isReservedCode code = true) (operands : List Bytes) :
    decodeCommand code operands = .ok (.cmd4Reserved code) := by
  rw [isReservedCode_iff] at h
  unfold decodeCommand
  split
  case h_7 => rfl
  all_goals omega

theorem decodeCommand_wellFormed {code : BitVec 4} {operands : List Bytes} {i : Instr}
    (h : decodeCommand code operands = .ok i) : i.WellFormed := by
  unfold decodeCommand decodeChecksum decodeCompose decodeIsvalid noOperands at h
  split at h
  case h_7 =>
    cases h
    rw [Instr.WellFormed, Instr.wellFormed, isReservedCode_iff]
    simp only [imp_false] at *
    omega
  all_goals
    split at h <;> cases h
    all_goals rfl

theorem decode_encode_of_format_cmd4 {i : Instr} (hi : i.format = .cmd4) (hwf : i.WellFormed) :
    decode (encode i) = .ok i := by
  cases i with
  | checksum bytes extra => cases extra <;> rfl
  | cmd4Reserved code => exact decodeCommand_of_reserved hwf []
  | compose | isvalid | take | status | reset => rfl
  | _ => cases hi

end Sys2Proof

/-! ## The detector's symbols (R74, R75) -/

namespace Sys2Proof

/-- The seventh case of R75: a full candidate and any byte but an STX. -/
theorem decodeSymbol_overrun {b : Byte} (h : classify b ≠ .stx) : decodeSymbol .acc true b = .stepAccOverrun b := by
  cases hb : classify b with
  | stx => exact absurd hb h
  | etx | other => simp only [decodeSymbol, hb, if_true]

theorem decodeSymbol_wellFormed (m : Mode) (full : Bool) (b : Byte) : (decodeSymbol m full b).WellFormed := by
  cases m <;> cases hb : classify b <;> cases full <;> simp [decodeSymbol, Instr.WellFormed, Instr.wellFormed, hb]

theorem decode_encode_of_format_sym8 {i : Instr} (hi : i.format = .sym8) (hwf : i.WellFormed) :
    decode (encode i) = .ok i := by
  cases i with
  | stepIdleOther b | stepAccOther b =>
    have hb : classify b = .other := beq_iff_eq.1 hwf
    simp [encode, decode, decodeSymbol, hb]
  | stepAccOverrun b => exact congrArg Except.ok (decodeSymbol_overrun (bne_iff_ne.1 hwf))
  | stepIdleStx | stepIdleEtx | stepAccStx | stepAccEtx => rfl
  | _ => cases hi

end Sys2Proof

/-! ## Encoding and decoding -/

namespace Sys2Proof.Machine

/-- Settles O34, format by format. -/
theorem decodeInvertsEncode : Obligations.DecodeInvertsEncode := by
  intro i hwf
  cases hi : i.format with
  | sym8 => exact decode_encode_of_format_sym8 hi hwf
  | byte8 =>
    cases i with
    | push b => rfl
    | _ => cases hi
  | cmd4 => exact decode_encode_of_format_cmd4 hi hwf
  | frame =>
    obtain ⟨paNo, frNo, data, hlen, rfl⟩ := exists_nameFrame_of_wellFormed hi hwf
    exact decode_encode_nameFrame hlen paNo frNo

/-- Settles O35: the decoder accepts the frames of R70 only, and names them by a row that spells the same bytes. -/
theorem encodeInvertsDecodeOfFramesAndBytes : Obligations.EncodeInvertsDecodeOfFramesAndBytes := by
  refine ⟨fun f i h => ?_, fun b i h => ?_⟩
  · obtain ⟨paNo, frNo, data, ⟨-, rfl⟩, rfl⟩ := spells_of_decodeFrame h
    exact encode_nameFrame paNo frNo data
  · cases h
    rfl

/-- Settles O36, channel by channel. -/
theorem decodedOperationsAreWellFormed : Obligations.DecodedOperationsAreWellFormed := by
  intro w i h
  refine ⟨?_, decode_format h⟩
  cases w with
  | sym8 m full b =>
    cases h
    exact decodeSymbol_wellFormed m full b
  | byte8 b =>
    cases h
    rfl
  | cmd4 code operands => exact decodeCommand_wellFormed h
  | frame bytes =>
    obtain ⟨paNo, frNo, data, ⟨hlen, -⟩, rfl⟩ := spells_of_decodeFrame h
    exact nameFrame_wellFormed hlen

/-- Settles O37: both sides hold of exactly the frames of R70. -/
theorem framesDecodeExactlyWhenWellFormed : Obligations.FramesDecodeExactlyWhenWellFormed := by
  intro f
  rw [frameWellFormed_iff]
  constructor
  · rintro ⟨i, h⟩
    obtain ⟨paNo, frNo, data, hspells, -⟩ := spells_of_decodeFrame h
    exact ⟨paNo, frNo, data, hspells⟩
  · rintro ⟨paNo, frNo, data, hspells⟩
    exact ⟨_, decodeFrame_of_spells hspells⟩

/-- Settles O32. -/
theorem reservedCodesAreRefused : Obligations.ReservedCodesAreRefused := by
  intro code operands s h
  rw [← BitVec.toNat_inj] at h
  exact ⟨decodeCommand_of_reserved ((isReservedCode_iff code).2 h) operands, rfl⟩

/-- Settles O33, by the decoder's own table. -/
theorem selectCodesDecode : Obligations.SelectCodesDecode :=
  fun _ _ _ => ⟨rfl, rfl, rfl, rfl, rfl, rfl, rfl⟩

/-- Settles O38, by running the decoder. -/
theorem wordsOfTheSpecDecode : Obligations.WordsOfTheSpecDecode :=
  ⟨rfl, rfl, rfl, rfl, rfl, rfl, rfl⟩

/-- Settles O39. -/
theorem byteClassesAreByValue : Obligations.ByteClassesAreByValue :=
  fun b => ⟨classify_eq_stx b, classify_eq_etx b, classify_eq_other b⟩

/-- Settles O40, class by class. -/
theorem modeAndClassSelectTheCase : Obligations.ModeAndClassSelectTheCase := by
  intro b full
  refine ⟨fun h => ?_, fun h => ?_, fun h => ?_, fun h => congrArg Except.ok (decodeSymbol_overrun h)⟩
  all_goals simp [decode, decodeSymbol, h]

end Sys2Proof.Machine

/-! ## What the rows of format FRAME return (R70, R78, R79) -/

namespace Sys2Proof.Machine

/-- Settles O25: the frame's fields are the row's operands. -/
theorem frameRowSpellsTheLayout : Obligations.FrameRowSpellsTheLayout := by
  refine ⟨fun paNo frNo data s hlen => ?_, fun paNo frNo data s hlen => ?_⟩
  · obtain ⟨p0, p1, rfl⟩ := exists_joinHalf paNo
    obtain ⟨f0, f1, rfl⟩ := exists_joinHalf frNo
    refine ⟨p0, p1, f0, f1, _, (toNat_joinHalf p0 p1).symm, (toNat_joinHalf f0 f1).symm, be16_hi_lo hlen, rfl, ?_⟩
    rw [exec, execFrame, if_neg (show ¬ Config.maxData < data.length from hlen.not_gt),
      halfBytes_joinHalf, halfBytes_joinHalf]
    rfl
  · rw [exec, execFrame, if_pos (show Config.maxData < data.length from hlen)]
    rfl

/-- R78: an ACK frame's bytes, with the fold of its constant bytes taken. -/
theorem frameBytes_ack (h l : Byte) : frameBytes [0x00#8, 0x00#8] [h, l] [Config.ack] =
    [0x02#8, 0x01#8, 0x00#8, 0x00#8, h, l, 0x00#8, 0x01#8, 0x06#8, 0x04#8 ^^^ h ^^^ l, 0x03#8] := by
  have hchk : xorOnto 0x02#8 [0x01#8, 0x00#8, 0x00#8, h, l, 0x00#8, 0x01#8, 0x06#8] = 0x04#8 ^^^ h ^^^ l := by
    simp only [xorOnto_cons, xorOnto_nil]
    calc _ = (0x02#8 ^^^ 0x01#8 ^^^ 0x00#8 ^^^ 0x00#8 ^^^ 0x00#8 ^^^ 0x01#8 ^^^ 0x06#8) ^^^ h ^^^ l := by
          ac_rfl
      _ = _ := rfl
  rw [← hchk]
  rfl

/-- Settles O26: COMPOSE builds the ACK frame under all parameters, since its data has no ETX. -/
theorem ackFrameIsElevenBytes : Obligations.AckFrameIsElevenBytes := by
  intro h l s
  have hcompose : exec (.ackFrame (joinHalf h l)) s = exec (.compose [0x00#8, 0x00#8] [h, l] [Config.ack]) s := by
    simp only [exec, execAckFrame, execCompose, halfBytes_joinHalf]
  refine ⟨?_, hcompose⟩
  rw [hcompose, ← frameBytes_ack]
  rfl

/-- Settles O27: the literal is what COMPOSE builds. -/
theorem syncFrameIsTheComposedLiteral : Obligations.SyncFrameIsTheComposedLiteral :=
  fun _ => ⟨rfl, rfl⟩

end Sys2Proof.Machine

/-! ## The laws of the fold (R100, R102) -/

namespace Sys2Proof

section

variable {s t : Bytes} {x y : Byte}

theorem xorFold_eq_some_iff : xorFold s = some x ↔ s ≠ [] ∧ xorOnto 0#8 s = x := by
  cases s <;> simp

/-- R102 law 3. -/
theorem xorFold_append (hs : xorFold s = some x) (ht : xorFold t = some y) : xorFold (s ++ t) = some (x ^^^ y) := by
  obtain ⟨hne, rfl⟩ := xorFold_eq_some_iff.1 hs
  obtain ⟨-, rfl⟩ := xorFold_eq_some_iff.1 ht
  rw [xorFold_of_ne_nil (List.append_ne_nil_of_left_ne_nil hne t), xorOnto_append, xorOnto_eq_xor t]

/-- R102 law 3: exclusive-or is commutative and associative, so a fold from any start is order-free. -/
theorem xorOnto_perm (h : s.Perm t) (x : Byte) : xorOnto x s = xorOnto x t :=
  haveI : RightCommutative (fun a b : Byte => a ^^^ b) := ⟨fun a b c => by ac_rfl⟩
  h.foldl_eq x

theorem xorFold_perm (h : s.Perm t) : xorFold s = xorFold t := by
  rcases eq_or_ne t [] with rfl | ht
  · rw [h.eq_nil]
  · have hs : s ≠ [] := fun hs => ht (hs ▸ h).symm.eq_nil
    rw [xorFold_of_ne_nil hs, xorFold_of_ne_nil ht, xorOnto_perm h]

/-- R102 law 4: both sequences are rearrangements of the changed byte and the bytes that stay. -/
theorem xorFold_set {i : Nat} {v : Byte} (hv : s[i]? = some v) (hx : xorFold s = some x) (v' : Byte) :
    xorFold (s.set i v') = some (x ^^^ (v ^^^ v')) := by
  obtain ⟨hi, rfl⟩ := List.getElem?_eq_some_iff.1 hv
  have hold : xorFold s = some (xorOnto s[i] (s.eraseIdx i)) :=
    (xorFold_perm (List.getElem_cons_eraseIdx_perm hi).symm).trans (xorFold_cons _ _)
  have hnew : xorFold (s.set i v') = some (xorOnto v' (s.eraseIdx i)) :=
    (xorFold_perm (List.set_perm_cons_eraseIdx hi v')).trans (xorFold_cons _ _)
  obtain rfl : xorOnto s[i] (s.eraseIdx i) = x := Option.some.inj (hold.symm.trans hx)
  rw [hnew, xorOnto_eq_xor _ v', xorOnto_eq_xor _ s[i]]
  congr 1
  calc v' ^^^ xorOnto 0#8 (s.eraseIdx i)
      = (s[i] ^^^ s[i]) ^^^ (v' ^^^ xorOnto 0#8 (s.eraseIdx i)) := by rw [BitVec.xor_self, BitVec.zero_xor]
    _ = _ := by ac_rfl

/-- A last byte `y` takes a fold `x` to `x xor y`, and no other fold. -/
theorem xorFold_concat_eq_iff (hs : s ≠ []) : xorFold (s ++ [y]) = some (x ^^^ y) ↔ xorFold s = some x := by
  have hfold : xorFold s = some (xorOnto 0#8 s) := xorFold_of_ne_nil hs
  rw [xorFold_append hfold (xorFold_cons y []), hfold, Option.some_inj, Option.some_inj, xorOnto_nil,
    BitVec.xor_left_inj]

/-- A sequence followed by `y` folds to zero exactly when `y` is its fold (R102 law 3, R108). -/
theorem xorFold_concat_eq_zero_iff (hs : s ≠ []) : xorFold (s ++ [y]) = some 0x00#8 ↔ xorFold s = some y := by
  rw [← xorFold_concat_eq_iff (y := y) hs, BitVec.xor_self]

end

end Sys2Proof

namespace Sys2Proof.Machine

/-- Settles O19: a sequence followed by its fold is the case of a concatenation that folds to zero. -/
theorem theFoldIsAdditiveAndOrderFree : Obligations.TheFoldIsAdditiveAndOrderFree :=
  ⟨fun _ _ _ _ hs ht => xorFold_append hs ht,
    fun _ _ h => (xorFold_concat_eq_zero_iff (xorFold_eq_some_iff.1 h).1).2 h,
    fun _ _ h => xorFold_perm h⟩

/-- Settles O20: the difference is zero exactly when the byte did not change. -/
theorem oneChangedByteChangesTheFold : Obligations.OneChangedByteChangesTheFold := by
  intro s i v v' x hv hx
  refine ⟨xorFold_set hv hx v', ?_⟩
  rw [← BitVec.xor_eq_zero_iff (x := v), ← BitVec.xor_right_inj (x := v ^^^ v') x, BitVec.xor_zero]

end Sys2Proof.Machine

/-! ## The validity test (R105, R107, R108) -/

namespace Sys2Proof

section

variable {f : Bytes}

/-- A sequence long enough to be tested is some bytes, the one they are checked against, and one that is not read. -/
theorem exists_checked_of_length (h : 3 ≤ f.length) : ∃ s c e, s ≠ [] ∧ f = s ++ [c, e] := by
  have htwo : (f.drop (f.length - 2)).length = 2 := by
    rw [List.length_drop]
    omega
  obtain ⟨c, e, htail⟩ := List.length_eq_two.1 htwo
  refine ⟨f.take (f.length - 2), c, e, ?_, by rw [← htail, List.take_append_drop]⟩
  rw [← List.length_pos_iff, List.length_take]
  omega

theorem validChecksum_of_length_lt (h : f.length < 3) : validChecksum f = false := by
  rw [validChecksum, if_pos h]

/-- R105, with the fold and the byte it is compared with named. -/
theorem validChecksum_iff_exists (h : 3 ≤ f.length) : validChecksum f = true ↔
    ∃ x, xorFold (f.take (f.length - 2)) = some x ∧ f[f.length - 2]? = some x := by
  obtain ⟨s, c, e, hs, rfl⟩ := exists_checked_of_length h
  rw [validChecksum_append s c e hs]
  simp

/-- R108: all bytes but the last fold to zero. -/
theorem validChecksum_iff_fold_zero (h : 3 ≤ f.length) :
    validChecksum f = true ↔ xorFold (f.take (f.length - 1)) = some 0x00#8 := by
  obtain ⟨s, c, e, hs, rfl⟩ := exists_checked_of_length h
  have hspan : (s ++ [c, e]).take ((s ++ [c, e]).length - 1) = s ++ [c] := by simp [List.take_append]
  rw [validChecksum_append s c e hs, hspan, xorFold_concat_eq_zero_iff hs]

/-- R108: a running fold over all bytes, the last one `e`, ends at `e`. -/
theorem validChecksum_iff_fold_last (h : 3 ≤ f.length) {e : Byte} (he : f[f.length - 1]? = some e) :
    validChecksum f = true ↔ xorFold f = some e := by
  obtain ⟨s, c, e', hs, rfl⟩ := exists_checked_of_length h
  obtain rfl : e' = e := by simpa using he
  rw [validChecksum_append s c e' hs, ← xorFold_concat_eq_zero_iff hs,
    ← xorFold_concat_eq_iff (y := e') (List.concat_ne_nil c s), BitVec.zero_xor, List.append_assoc]
  rfl

/-- R105: the last byte is not read. -/
theorem validChecksum_concat (g : Bytes) (x y : Byte) : validChecksum (g ++ [x]) = validChecksum (g ++ [y]) := by
  by_cases h : 2 ≤ g.length
  · rw [Bool.eq_iff_iff, validChecksum_iff_fold_zero (by simpa using h),
      validChecksum_iff_fold_zero (by simpa using h)]
    simp
  · rw [validChecksum_of_length_lt (by simp; omega), validChecksum_of_length_lt (by simp; omega)]

/-- R107: a change before the last byte takes the fold of the bytes before it away from zero. -/
theorem validChecksum_set_of_lt {i : Nat} {v v' : Byte} (h : 3 ≤ f.length) (hvalid : validChecksum f = true)
    (hv : f[i]? = some v) (hne : v' ≠ v) (hi : i < f.length - 1) : validChecksum (f.set i v') = false := by
  rw [validChecksum_iff_fold_zero h] at hvalid
  have hv' : (f.take (f.length - 1))[i]? = some v := by rwa [List.getElem?_take_of_lt hi]
  rw [← Bool.not_eq_true, validChecksum_iff_fold_zero (by simpa using h), List.length_set, List.take_set,
    xorFold_set hv' hvalid, BitVec.zero_xor, Option.some_inj, BitVec.xor_eq_zero_iff]
  exact hne.symm

theorem validChecksum_set_last (h : 3 ≤ f.length) (v' : Byte) :
    validChecksum (f.set (f.length - 1) v') = validChecksum f := by
  rw [Bool.eq_iff_iff, validChecksum_iff_fold_zero (by simpa using h), validChecksum_iff_fold_zero h, List.length_set,
    List.take_set_of_le le_rfl]

end

/-- R106: what is laid out as R70 is valid, whatever its fields. -/
theorem validChecksum_frameBytes (paNo frNo data : Bytes) : validChecksum (frameBytes paNo frNo data) = true :=
  (validChecksum_append (Config.stx :: frameBody paNo frNo data) _ Config.etx (List.cons_ne_nil _ _)).2 rfl

end Sys2Proof

namespace Sys2Proof.Machine

/-- Settles O57: the bytes before the last fold to zero before the change, and after it when they are not touched. -/
theorem oneCorruptedByteIsDetected : Obligations.OneCorruptedByteIsDetected := by
  intro f i v v' hlen hvalid hv hne
  refine ⟨fun hi => validChecksum_set_of_lt hlen hvalid hv hne (by omega), ?_⟩
  rintro rfl
  rw [validChecksum_set_last hlen, hvalid]

/-- Settles O58: both other forms fold the compared byte in with the bytes it is compared with. -/
theorem validityHasThreeForms : Obligations.ValidityHasThreeForms :=
  fun _ hlen => ⟨validChecksum_iff_fold_zero hlen, validChecksum_iff_fold_last hlen⟩

/-- Settles O23. The last byte is in no part of the test. -/
theorem isvalidTestsTheChecksumOnly : Obligations.IsvalidTestsTheChecksumOnly := by
  refine ⟨fun f s => ⟨validChecksum f, rfl, validChecksum_of_length_lt, validChecksum_iff_exists⟩,
    fun g x y s => ?_⟩
  simp only [exec, execIsvalid, validChecksum_concat g x y]

end Sys2Proof.Machine

/-! ## What COMPOSE answers (R103, R104, R106) -/

namespace Sys2Proof.Machine

section

variable {P : Params} {s : State} {paNo frNo data : Bytes}

theorem exec_compose_of_ok {f : Bytes} (h : composeResult s.params paNo frNo data = .ok f) :
    exec (.compose paNo frNo data) s = .next (s.answer (.built f)) := by
  rw [exec, execCompose, h]
  rfl

theorem exec_compose_of_error {e : ErrorKind} (h : composeResult s.params paNo frNo data = .error e) :
    exec (.compose paNo frNo data) s = .next (s.answer (.error e)) := by
  rw [exec, execCompose, h]
  rfl

theorem composeResult_invalidAddress (h : paNo.length ≠ 2 ∨ frNo.length ≠ 2) :
    composeResult P paNo frNo data = .error .invalidAddress := by
  rw [composeResult, if_pos h]

theorem composeResult_dataTooLong (hpa : paNo.length = 2) (hfr : frNo.length = 2) (h : 65535 < data.length) :
    composeResult P paNo frNo data = .error .dataTooLong := by
  rw [composeResult, if_neg (by simp [hpa, hfr]), if_pos (show Config.maxData < data.length from h)]

/-- Past the first two failures of R104, the third alone decides. -/
theorem composeResult_of_lengths (hpa : paNo.length = 2) (hfr : frNo.length = 2) (hlen : data.length ≤ 65535) :
    composeResult P paNo frNo data =
      if Config.etx ∈ data ∧ P.etxInDataFaults = true then .error .unsupportedPayload
      else .ok (frameBytes paNo frNo data) := by
  rw [composeResult, if_neg (by simp [hpa, hfr]), if_neg (show ¬ Config.maxData < data.length from hlen.not_gt)]
  simp only [Bool.and_eq_true, List.contains_iff_mem]

theorem composeResult_unsupportedPayload (hpa : paNo.length = 2) (hfr : frNo.length = 2)
    (hlen : data.length ≤ 65535) (hP : P.etxInDataFaults = true) (hetx : Config.etx ∈ data) :
    composeResult P paNo frNo data = .error .unsupportedPayload := by
  rw [composeResult_of_lengths hpa hfr hlen, if_pos ⟨hetx, hP⟩]

theorem composeResult_built (hpa : paNo.length = 2) (hfr : frNo.length = 2)
    (hlen : data.length ≤ 65535) (h : P.etxInDataFaults = true → Config.etx ∉ data) :
    composeResult P paNo frNo data = .ok (frameBytes paNo frNo data) := by
  rw [composeResult_of_lengths hpa hfr hlen, if_neg fun ⟨hetx, hP⟩ => h hP hetx]

end

/-- Settles O56, field by field of the frame COMPOSE builds. -/
theorem composedFramesAreValidAndWellFormed : Obligations.ComposedFramesAreValidAndWellFormed := by
  intro P paNo frNo data f h
  obtain ⟨hpa, hfr, hlen, rfl⟩ := composeResult_ok h
  obtain ⟨p0, p1, rfl⟩ := List.length_eq_two.1 hpa
  obtain ⟨f0, f1, rfl⟩ := List.length_eq_two.1 hfr
  refine ⟨validChecksum_frameBytes _ _ _, ?_, ?_⟩
  · rw [frameBytes_fields]
    exact frameWellFormed_fields.2 ⟨rfl, rfl, be16_hi_lo hlen, rfl, rfl⟩
  · simp [frameBytes_fields]

/-- Settles O21: the checksum is the fold of the header and the data. -/
theorem composeBuildsTheFrame : Obligations.ComposeBuildsTheFrame := by
  intro p0 p1 f0 f1 data s hlen hetx
  refine ⟨_, rfl, ?_⟩
  rw [exec_compose_of_ok (composeResult_built rfl rfl hlen hetx), frameBytes_fields]
  simp [State.answer, Config.stx, Config.version, Config.etx]

/-- Settles O22, failure by failure. -/
theorem composeFailsInTheStatedOrder : Obligations.ComposeFailsInTheStatedOrder := by
  intro paNo frNo data s
  refine ⟨fun haddr => ?_, fun hpa hfr hlong => ?_, fun hpa hfr hlen hP hetx => ?_, fun hpa hfr hlen h => ?_⟩
  · exact exec_compose_of_error (composeResult_invalidAddress haddr)
  · exact exec_compose_of_error (composeResult_dataTooLong hpa hfr hlong)
  · exact exec_compose_of_error (composeResult_unsupportedPayload hpa hfr hlen hP hetx)
  · refine exec_compose_of_ok (composeResult_built hpa hfr hlen fun hP => ?_)
    exact h.resolve_left (by simp [hP])

end Sys2Proof.Machine

/-! ## What CHECKSUM answers (R101) -/

namespace Sys2Proof.Machine

theorem exec_checksum_of_fold {bytes : Bytes} {extra : Option Bytes} {v : Byte} (hne : bytes ≠ [])
    (hv : xorFold (bytes ++ extra.getD []) = some v) (s : State) :
    exec (.checksum bytes extra) s = .next (s.answer (.checksum v)) := by
  cases bytes with
  | nil => exact absurd rfl hne
  | cons b rest =>
    cases hv
    rfl

theorem exists_xorFold_append {a : Bytes} (ha : a ≠ []) (b : Bytes) : ∃ v, xorFold (a ++ b) = some v :=
  ⟨_, xorFold_of_ne_nil (List.append_ne_nil_of_left_ne_nil ha b)⟩

/-- Settles O17. A byte alone is its own fold, so every byte is reached. -/
theorem checksumFoldsBytesThenExtra : Obligations.ChecksumFoldsBytesThenExtra := by
  refine ⟨fun bytes extra s hne => ?_, fun _ _ => rfl, fun _ _ => rfl⟩
  obtain ⟨v, hv⟩ := exists_xorFold_append hne (extra.getD [])
  exact ⟨v, hv, exec_checksum_of_fold hne hv s⟩

/-- Settles O18: both sides answer the fold of `a ++ b`. -/
theorem checksumIgnoresTheSplit : Obligations.ChecksumIgnoresTheSplit := by
  intro a b s ha
  obtain ⟨v, hv⟩ := exists_xorFold_append ha b
  have hab : xorFold (a ++ b ++ (none : Option Bytes).getD []) = some v := by simpa using hv
  refine ⟨?_, rfl⟩
  rw [exec_checksum_of_fold (extra := some b) ha hv,
    exec_checksum_of_fold (List.append_ne_nil_of_left_ne_nil ha b) hab]

end Sys2Proof.Machine

/-! ## The detector as a function of the stream (R141) -/

namespace Sys2Proof.Machine

theorem runStream_append (P : Params) (m : Mode) (c p t : Bytes) :
    runStream P m c (p ++ t) =
      ⟨(runStream P (runStream P m c p).mode (runStream P m c p).cand t).mode,
        (runStream P (runStream P m c p).mode (runStream P m c p).cand t).cand,
        (runStream P m c p).frames ++ (runStream P (runStream P m c p).mode (runStream P m c p).cand t).frames,
        (runStream P m c p).events ++ (runStream P (runStream P m c p).mode (runStream P m c p).cand t).events⟩ := by
  induction p generalizing m c with
  | nil => rfl
  | cons b p ih => simp only [List.cons_append, runStream, ih, List.append_assoc]

/-- Settles O49. -/
theorem framesOfALongerStreamExtend : Obligations.FramesOfALongerStreamExtend := by
  refine fun P m c p t => ⟨⟨_, _, rfl, rfl, runStream_append P m c p t⟩, ?_⟩
  rw [framesOf, framesOf, runStream_append]
  exact List.prefix_append _ _

/-- `Run((m, c), s)` ends in `(m', c')` and its frames are `fs`; its events are left out. -/
structure Leads (P : Params) (m : Mode) (c s : Bytes) (m' : Mode) (c' : Bytes) (fs : List Bytes) : Prop where
  mode : (runStream P m c s).mode = m'
  cand : (runStream P m c s).cand = c'
  frames : (runStream P m c s).frames = fs

section

variable {P : Params} {m m' m'' : Mode} {c c' c'' s t : Bytes} {fs gs : List Bytes}

theorem leads_nil (P : Params) (m : Mode) (c : Bytes) : Leads P m c [] m c [] := ⟨rfl, rfl, rfl⟩

theorem Leads.append (h : Leads P m c s m' c' fs) (h' : Leads P m' c' t m'' c'' gs) :
    Leads P m c (s ++ t) m'' c'' (fs ++ gs) := by
  obtain ⟨rfl, rfl, rfl⟩ := h
  obtain ⟨rfl, rfl, rfl⟩ := h'
  constructor <;> rw [runStream_append]

theorem leads_byte (P : Params) (m : Mode) (c : Bytes) (b : Byte) :
    Leads P m c [b] (detectByte P m c b).mode (detectByte P m c b).cand (detectByte P m c b).emitted.toList :=
  ⟨rfl, rfl, List.append_nil _⟩

end

/-- R141 as a run over the bytes consumed. -/
theorem tracks_iff (s : State) (p : Bytes) :
    s.Tracks p ↔ Leads s.params .idle [] p s.fcr.mode s.fcr.cand (s.taken ++ s.fcr.out.toList) :=
  ⟨fun ⟨hmode, hcand, hframes⟩ => ⟨hmode.symm, hcand.symm, hframes.symm⟩,
    fun ⟨hmode, hcand, hframes⟩ => ⟨hmode.symm, hcand.symm, hframes.symm⟩⟩

/-- Settles O48. -/
theorem resetTracksTheEmptyStream : Obligations.ResetTracksTheEmptyStream :=
  (tracks_iff _ _).2 (leads_nil _ _ _)

@[simp] theorem advance_taken (s : State) : (advance s).taken = s.taken := rfl

@[simp] theorem accept_taken (s : State) (b : Byte) : (s.accept b).taken = s.taken := rfl

/-- A result that is no frame hands none over. -/
theorem Result.taken_eq_none {r : Result} (h : ∀ f, r ≠ .frame f) : r.taken = none := by
  cases r with
  | frame f => exact absurd rfl (h f)
  | _ => rfl

/-- R160: TAKE moves the frame in `out` to the frames taken, and no other operation of the host touches either. -/
theorem Effect.taken_append_out {i : Instr} {s t : State} (h : Effect i s t) (hi : i.symbol = none)
    (hreset : i ≠ .reset) : t.taken ++ t.fcr.out.toList = s.taken ++ s.fcr.out.toList := by
  cases h with
  | moves hstep => simp [hi] at hstep
  | takes _ hout => simp [State.taken, Result.taken, hout]
  | resets hr => exact absurd hr hreset
  | answers r _ hr => simp [State.taken, Result.taken_eq_none hr]
  | nothing | pushes => rfl

/-- Settles O47, agent by agent: the detector runs on by one byte, which emits into an empty `out`; nothing else moves
the detector or changes which frames were handed over or wait. -/
theorem everyStepFollowsTheStream : Obligations.EveryStepFollowsTheStream := by
  intro s t p hs hstep hreset
  rw [tracks_iff] at hs ⊢
  cases stepKind_of_step hstep with
  | idles hi => simpa [consumedNext_of_none hi] using hs
  | @consumes b rest ho hb hi =>
    rw [consumedNext_of_some hi, decodeSymbol_symbol]
    have hrun := hs.append (leads_byte s.params s.fcr.mode s.fcr.cand b)
    rwa [ho, Option.toList_none, List.append_nil] at hrun
  | accepts _ hi => simpa [consumedNext_of_some hi, Instr.symbol] using hs
  | @serves i _ hi hsym hpush heffect =>
    have hnot : i ≠ .reset := fun h => hreset (h ▸ hi)
    obtain ⟨hmode, hcand⟩ := heffect.mode_cand_eq hsym hnot
    rw [consumedNext_of_some hi, hsym, heffect.params_eq, hmode, hcand, heffect.taken_append_out hsym hnot]
    simpa using hs

end Sys2Proof.Machine

/-! ## The seven cases of STEP (R132 to R139) -/

namespace Sys2Proof.Machine

theorem StepReady.selected {s : State} {m : Mode} {b : Byte} {rest : Bytes} {cond : Bool} {mv : Move}
    (h : StepReady s m b rest) (hc : cond = true) : detectorStep s m b cond mv = .next (s.moved rest mv) := by
  obtain ⟨ho, hb, hm⟩ := h
  exact detectorStep_selected ho hb hm hc

/-- A block on which STEP is enabled, written out. -/
theorem StepReady.exists_eq {s : State} {m : Mode} {b : Byte} {rest : Bytes} (h : StepReady s m b rest) :
    ∃ P c env evs rs, s = ⟨P, ⟨b :: rest, m, c, none⟩, env, evs, rs⟩ := by
  obtain ⟨P, ⟨buf, mode, c, out⟩, env, evs, rs⟩ := s
  obtain ⟨rfl, rfl, rfl⟩ : out = none ∧ buf = b :: rest ∧ mode = m := h
  exact ⟨P, c, env, evs, rs, rfl⟩

/-- Settles O7. -/
theorem noiseInIdleIsDiscarded : Obligations.NoiseInIdleIsDiscarded := by
  intro s b rest h hb
  obtain ⟨P, c, env, evs, rs, rfl⟩ := h.exists_eq
  exact h.selected (beq_iff_eq.2 hb)

/-- Settles O8. -/
theorem strayEtxInIdleIsDiscarded : Obligations.StrayEtxInIdleIsDiscarded := by
  intro s rest h
  obtain ⟨P, c, env, evs, rs, rfl⟩ := h.exists_eq
  exact h.selected rfl

/-- Settles O9. -/
theorem stxInIdleOpensACandidate : Obligations.StxInIdleOpensACandidate := by
  intro s rest h
  obtain ⟨P, c, env, evs, rs, rfl⟩ := h.exists_eq
  exact ⟨_, h.selected rfl, rfl, rfl⟩

/-- Settles O10. -/
theorem stxInAccResynchronises : Obligations.StxInAccResynchronises := by
  intro s rest h
  obtain ⟨P, c, env, evs, rs, rfl⟩ := h.exists_eq
  exact h.selected rfl

theorem candFull_eq_false {s : State} (h : s.params.candMax.hasRoom s.fcr.cand.length = true) :
    candFull s = false := by
  rw [candFull, h, Bool.not_true]

/-- R139: a candidate of exactly `CAND_MAX` bytes is full. -/
theorem candFull_of_candMax_eq {s : State} (h : s.params.candMax = .atMost s.fcr.cand.length) :
    candFull s = true := by
  simp [candFull, h, Capacity.hasRoom]

theorem candFull_of_unbounded {s : State} (h : s.params.candMax = .unbounded) : candFull s = false :=
  candFull_eq_false (by rw [h]; rfl)

/-- Settles O11. -/
theorem otherInAccIsAppended : Obligations.OtherInAccIsAppended := by
  intro s b rest h hb hroom
  have hfull := candFull_eq_false hroom
  obtain ⟨P, c, env, evs, rs, rfl⟩ := h.exists_eq
  exact h.selected (by simp [hb, hfull])

/-- Settles O12: the three cases are the three branches of the move. -/
theorem etxInAccKeepsEmitsOrDiscards : Obligations.EtxInAccKeepsEmitsOrDiscards := by
  intro s rest h hroom
  have hfull := candFull_eq_false hroom
  obtain ⟨P, c, env, evs, rs, rfl⟩ := h.exists_eq
  refine ⟨_, h.selected (by rw [hfull, Bool.not_false]), ?_⟩
  split_ifs with hshort hvalid
  · rw [closeOrKeep_short hshort]
    rfl
  · rw [closeOrKeep_emits hshort hvalid]
    exact ⟨rfl, rfl, rfl, rfl⟩
  · rw [closeOrKeep_discards hshort hvalid]
    exact ⟨rfl, rfl⟩

/-- The decoder selects the overrun only for a full candidate (R75). -/
theorem full_of_decodeSymbol_overrun {m : Mode} {full : Bool} {b b' : Byte}
    (h : decodeSymbol m full b = .stepAccOverrun b') : full = true := by
  cases full with
  | true => rfl
  | false => cases m <;> cases hb : classify b <;> simp [decodeSymbol, hb] at h

/-- Settles O13: without a bound the candidate is never full. -/
theorem overrunDiscardsTheCandidate : Obligations.OverrunDiscardsTheCandidate := by
  refine ⟨fun s b rest h hb hmax => ?_, fun s w b hmax hw hdecode => ?_⟩
  · have hfull := candFull_of_candMax_eq hmax
    obtain ⟨P, c, env, evs, rs, rfl⟩ := h.exists_eq
    exact ⟨_, h.selected (by simp [hb, hfull]), rfl, rfl⟩
  · obtain ⟨b', _, -, -, rfl⟩ := detectorWord_eq_some hw
    have hfull := full_of_decodeSymbol_overrun (Except.ok.inj hdecode)
    simp [candFull_of_unbounded hmax] at hfull

/-- Settles O59. -/
theorem stxRestartsFromEveryState : Obligations.StxRestartsFromEveryState := by
  intro P m c
  cases m <;> exact ⟨rfl, rfl, rfl⟩

theorem detectorWord_of_head {s : State} {b : Byte} {rest : Bytes} (ho : s.fcr.out = none)
    (hb : s.fcr.buf = b :: rest) : detectorWord s = some (.sym8 s.fcr.mode (candFull s) b) := by
  simp only [detectorWord, ho, hb]

/-- A case that the decoder would give when the case's own conditions hold, and does not give, changes nothing. -/
theorem detectorStep_of_not_decoded {i : Instr} {s : State} {m : Mode} {b : Byte} {cond : Bool} {mv : Move}
    (hnot : ∀ w, detectorWord s = some w → decode w ≠ .ok i)
    (hi : s.fcr.mode = m → cond = true → decodeSymbol s.fcr.mode (candFull s) b = i) :
    detectorStep s m b cond mv = .next s := by
  rcases detectorStep_cases s m b cond mv with h | ⟨rest, ho, hb, hm, hc, -⟩
  · exact h
  · exact absurd (congrArg Except.ok (hi hm hc)) (hnot _ (detectorWord_of_head ho hb))

/-- Settles O14, case by case: the conditions of each case are those under which the decoder selects it. -/
theorem anUnselectedCaseChangesNothing : Obligations.AnUnselectedCaseChangesNothing := by
  intro i s hi hnot
  cases i with
  | stepIdleStx | stepIdleEtx | stepAccStx =>
    exact detectorStep_of_not_decoded hnot fun hm _ => by rw [hm]; rfl
  | stepIdleOther b =>
    exact detectorStep_of_not_decoded hnot fun hm hb => by simp [decodeSymbol, hm, beq_iff_eq.1 hb]
  | stepAccEtx =>
    exact detectorStep_of_not_decoded hnot fun hm hc => by simp [decodeSymbol, hm, (Bool.not_eq_true' _).mp hc]
  | stepAccOther b =>
    refine detectorStep_of_not_decoded hnot fun hm hc => ?_
    obtain ⟨hb, hroom⟩ := Bool.and_eq_true_iff.1 hc
    simp [decodeSymbol, hm, beq_iff_eq.1 hb, (Bool.not_eq_true' _).mp hroom]
  | stepAccOverrun b =>
    refine detectorStep_of_not_decoded hnot fun hm hc => ?_
    obtain ⟨hb, hfull⟩ := Bool.and_eq_true_iff.1 hc
    rw [hm, hfull, decodeSymbol_overrun (bne_iff_ne.1 hb)]
  | _ => exact absurd rfl hi

end Sys2Proof.Machine

/-! ## The detector's turn (R132, R222) -/

namespace Sys2Proof.Machine

section

variable {s : State}

theorem step_of_fetchWord_none (h : fetchWord s = none) : step s = .next (advance s) := by
  simp only [step, h]

theorem step_of_decoded {w : Encoded} {i : Instr} (hw : fetchWord s = some w) (hd : decode w = .ok i) :
    step s = exec i (advance s) := by
  simp only [step, hw, hd]

theorem fetchWord_of_detector (h : turn s = .detector) : fetchWord s = detectorWord s := by
  simp only [fetchWord, h]

theorem advance_of_detector (h : turn s = .detector) :
    advance s = s.withEnv { s.env with schedule := s.env.schedule.tail } := by
  simp only [advance, envAfter, h]

/-- R132: the step taken on the detector's turn when STEP is enabled. -/
theorem step_of_head {b : Byte} {rest : Bytes} (hturn : turn s = .detector) (ho : s.fcr.out = none)
    (hb : s.fcr.buf = b :: rest) :
    step s = .next ((advance s).moved rest (detectByte s.params s.fcr.mode s.fcr.cand b)) := by
  have hw : fetchWord s = some (.sym8 s.fcr.mode (candFull s) b) := by
    rw [fetchWord_of_detector hturn, detectorWord_of_head ho hb]
  rw [step_of_decoded hw rfl]
  exact exec_decodeSymbol (s := advance s) ho hb

/-- R132: while a frame waits the detector's turn leaves the block as it is. -/
theorem step_of_frame_waiting (hturn : turn s = .detector) (ho : s.fcr.out ≠ none) : step s = .next (advance s) := by
  refine step_of_fetchWord_none ?_
  rw [fetchWord_of_detector hturn, Option.eq_none_iff_forall_ne_some]
  intro w hw
  obtain ⟨_, _, hout, -, -⟩ := detectorWord_eq_some hw
  exact ho hout

end

/-- Settles O15. -/
theorem eachStepConsumesOneByteAndOutputsOneEvent : Obligations.EachStepConsumesOneByteAndOutputsOneEvent := by
  intro s b rest hturn ho hb
  rw [step_of_head hturn ho hb, advance_of_detector hturn]
  rfl

section

variable {s : State}

theorem turn_of_nothing_scheduled (h : s.env.schedule = []) : turn s = .detector := by
  simp only [turn, h, List.headD_nil]

theorem advance_of_nothing_scheduled (h : s.env.schedule = []) : advance s = s := by
  have henv : { s.env with schedule := s.env.schedule.tail } = s.env := by rw [h, List.tail_nil, ← h]
  rw [advance_of_detector (turn_of_nothing_scheduled h), henv]
  rfl

theorem run_succ {t : State} (h : step s = .next t) (n : Nat) :
    Host.Core.run core (n + 1) s = Host.Core.run core n t := by
  have hcore : core.step s = .next t := h
  simp only [Host.Core.run, hcore]

theorem run_of_step_self (h : step s = .next s) (n : Nat) : Host.Core.run core n s = .next s := by
  induction n with
  | zero => rfl
  | succ n ih => rw [run_succ h, ih]

end

/-- Settles O16, by induction on the bytes in `buf`: while a frame waits the block rests, else one byte leaves. -/
theorem anUndisturbedDetectorDrainsTheBuffer : Obligations.AnUndisturbedDetectorDrainsTheBuffer := by
  intro s hsched
  induction hbuf : s.fcr.buf generalizing s with
  | nil => exact ⟨s, rfl, .inl hbuf, rfl, rfl, rfl⟩
  | cons b rest ih =>
    have hturn := turn_of_nothing_scheduled hsched
    have hadv := advance_of_nothing_scheduled hsched
    by_cases ho : s.fcr.out = none
    · have hstep := step_of_head hturn ho hbuf
      rw [hadv] at hstep
      obtain ⟨t, hrun, hdrained⟩ := ih (s.moved rest (detectByte s.params s.fcr.mode s.fcr.cand b)) hsched rfl
      exact ⟨t, (run_succ hstep _).trans hrun, hdrained⟩
    · have hstep := step_of_frame_waiting hturn ho
      rw [hadv] at hstep
      exact ⟨s, run_of_step_self hstep _, .inr ho, rfl, rfl, rfl⟩

end Sys2Proof.Machine

/-! ## The source and its chunks (R130, R131, R142) -/

namespace Sys2Proof.Machine

/-- R65: PUSH at a full buffer has no step. -/
theorem exec_push_of_full {s : State} (h : canPush s = false) (b : Byte) : exec (.push b) s = .next s := by
  simp only [exec, execPush, h, Bool.false_eq_true, if_false]

/-- Settles O4: a buffer with one byte more is not empty. -/
theorem pushAppendsAtTheTail : Obligations.PushAppendsAtTheTail := by
  intro b s hroom
  refine ⟨exec_push_of_canPush hroom, ?_⟩
  simp [Fcr.flags, Fcr.frameLen]

/-- Settles O5. -/
theorem pushAtAFullBufferChangesNothing : Obligations.PushAtAFullBufferChangesNothing :=
  fun b _ hfull => exec_push_of_full hfull b

/-- Settles O6: with room the source offers its byte, else nothing. -/
theorem sourceTurnPushesOrWaits : Obligations.SourceTurnPushesOrWaits := by
  intro s b bs hturn hin
  have hfetch : fetchWord s = if canPush s then some (.byte8 b) else none := by
    simp only [fetchWord, hturn, sourceWord, hin]
  have hadv : advance s = s.withEnv { s.env with
      incoming := if canPush s then bs else b :: bs, schedule := s.env.schedule.tail } := by
    simp only [advance, envAfter, hturn, incomingAfter, hin, List.tail_cons]
  split_ifs with hroom
  · have hcan : canPush s = true := hroom
    rw [if_pos hcan] at hfetch hadv
    rw [step_of_decoded hfetch rfl, exec_push_of_canPush (s := advance s) hcan, hadv]
    rfl
  · have hcan : ¬ canPush s = true := hroom
    rw [if_neg hcan] at hfetch hadv
    rw [step_of_fetchWord_none hfetch, hadv, ← hin]
    rfl

section

variable {s : State}

theorem pushN_cons_of_canPush (h : canPush s = true) (b : Byte) (bs : Bytes) :
    pushN s (b :: bs) = pushN (s.accept b) bs := if_pos h

theorem pushN_cons_of_full (h : ¬ canPush s = true) (b : Byte) (bs : Bytes) :
    pushN s (b :: bs) = (s, b :: bs) := if_neg h

/-- R131: the bytes that wait do so in front of those that follow them. -/
theorem pushN_append (s : State) (a b : Bytes) :
    pushN s (a ++ b) =
      if (pushN s a).2 = [] then pushN (pushN s a).1 b else ((pushN s a).1, (pushN s a).2 ++ b) := by
  induction a generalizing s with
  | nil => rfl
  | cons x a ih =>
    by_cases h : canPush s = true
    · rw [List.cons_append, pushN_cons_of_canPush h, pushN_cons_of_canPush h, ih]
    · rw [List.cons_append, pushN_cons_of_full h, pushN_cons_of_full h, if_neg (List.cons_ne_nil x a),
        List.cons_append]

/-- R131: no byte of a chunk is lost or made up. -/
theorem pushN_conserves (s : State) (a : Bytes) :
    (pushN s a).1.fcr.buf ++ (pushN s a).2 = s.fcr.buf ++ a := by
  induction a generalizing s with
  | nil => rfl
  | cons x a ih =>
    by_cases h : canPush s = true
    · rw [pushN_cons_of_canPush h, ih, accept_fcr, List.append_assoc, List.singleton_append]
    · rw [pushN_cons_of_full h]

end

/-- Settles O50. -/
theorem chunksPushLikeTheirConcatenation : Obligations.ChunksPushLikeTheirConcatenation :=
  ⟨fun _ => rfl,
    fun _ b bs hroom => ⟨_, exec_push_of_canPush hroom, rfl, pushN_cons_of_canPush hroom b bs⟩,
    fun _ b bs hfull => pushN_cons_of_full (Bool.eq_false_iff.1 hfull) b bs,
    fun s a b => ⟨pushN_append s a b, pushN_conserves s a⟩⟩

end Sys2Proof.Machine

/-! ## A frame in the stream (R143, R223) -/

namespace Sys2Proof.Machine

theorem hasRoom_of_holds {c : Capacity} {k n : Nat} (h : c.holds n = true) (hk : k < n) : c.hasRoom k = true := by
  cases c with
  | unbounded => rfl
  | atMost max =>
    have hmax : n ≤ max := of_decide_eq_true h
    exact decide_eq_true (hk.trans_le hmax)

section Runs

variable {P : Params} {c body : Bytes} {b : Byte}

/-- What R25 says of an open candidate it says of the candidate before its last byte, and that byte was let in. -/
theorem detectorInv_of_append (h : DetectorInv P .acc (Config.stx :: (body ++ [b]))) :
    DetectorInv P .acc (Config.stx :: body) ∧ b ≠ Config.stx ∧ (b = Config.etx → body.length < 8) ∧
      P.candMax.hasRoom (body.length + 1) = true := by
  obtain _ | ⟨hstx, hetx, hcap⟩ := h
  rw [List.mem_append, not_or, List.mem_singleton] at hstx
  rw [List.length_append, List.length_singleton] at hcap
  rw [List.drop_append, List.mem_append, not_or] at hetx
  refine ⟨.acc hstx.1 hetx.1 (holds_mono hcap (Nat.le_succ _)), Ne.symm hstx.2, ?_,
    hasRoom_of_holds hcap (Nat.lt_succ_self _)⟩
  rintro rfl
  by_contra hlong
  exact hetx.2 (by simp [Nat.sub_eq_zero_of_le (not_lt.1 hlong)])

/-- R137, R138(a): a byte after which the candidate may still be open leaves it open. -/
theorem detectByte_keeps_open (h : DetectorInv P .acc (Config.stx :: (body ++ [b]))) :
    detectByte P .acc (Config.stx :: body) b = ⟨.acc, Config.stx :: (body ++ [b]), none, .quiet⟩ := by
  obtain ⟨-, hstx, hetx, hroom⟩ := detectorInv_of_append h
  have hroom' : P.candMax.hasRoom (Config.stx :: body).length = true := hroom
  cases hb : classify b with
  | stx => exact absurd ((classify_eq_stx b).1 hb) hstx
  | etx =>
    obtain rfl := (classify_eq_etx b).1 hb
    have hshort : (Config.stx :: body ++ [Config.etx]).length < 10 := by
      have hbody := hetx rfl
      simp
      omega
    simp only [detectByte, hb, hroom', if_true, closeOrKeep_short hshort, List.cons_append]
  | other => simp only [detectByte, hb, hroom', if_true, extend, List.cons_append]

/-- From everywhere an STX and the bytes of an open candidate open that candidate and emit nothing (R144). -/
theorem leads_open (m : Mode) (c : Bytes) (h : DetectorInv P .acc (Config.stx :: body)) :
    Leads P m c (Config.stx :: body) .acc (Config.stx :: body) [] := by
  induction body using List.reverseRecOn with
  | nil =>
    obtain ⟨hmode, hcand, hemitted⟩ := stxRestartsFromEveryState P m c
    have hstx := leads_byte P m c Config.stx
    rwa [hmode, hcand, hemitted] at hstx
  | append_singleton body b ih =>
    have hbyte := leads_byte P .acc (Config.stx :: body) b
    rw [detectByte_keeps_open h] at hbyte
    exact (ih (detectorInv_of_append h).1).append hbyte

/-- R138(b), (c): an ETX that closes a candidate emits it if its checksum is right. -/
theorem leads_close (hlen : 8 ≤ body.length) (hroom : P.candMax.hasRoom (body.length + 1) = true) :
    Leads P .acc (Config.stx :: body) [Config.etx] .idle []
      (if validChecksum (Config.stx :: body ++ [Config.etx]) then [Config.stx :: body ++ [Config.etx]] else []) := by
  have hlong : ¬ (Config.stx :: body ++ [Config.etx]).length < 10 := by
    simp
    omega
  have hmove : detectByte P .acc (Config.stx :: body) Config.etx = closeOrKeep (Config.stx :: body) := by
    simp only [detectByte, classify_etx]
    exact if_pos hroom
  have hbyte := leads_byte P .acc (Config.stx :: body) Config.etx
  rw [hmove] at hbyte
  split_ifs with hvalid
  · rwa [closeOrKeep_emits hlong hvalid] at hbyte
  · rwa [closeOrKeep_discards hlong hvalid] at hbyte

/-- A candidate of nine bytes or more that an ETX then closes, from everywhere. -/
theorem leads_closed (m : Mode) (c : Bytes) (h : DetectorInv P .acc (Config.stx :: body)) (hlen : 8 ≤ body.length)
    (hroom : P.candMax.hasRoom (body.length + 1) = true) :
    Leads P m c (Config.stx :: body ++ [Config.etx]) .idle []
      (if validChecksum (Config.stx :: body ++ [Config.etx]) then [Config.stx :: body ++ [Config.etx]] else []) :=
  (leads_open m c h).append (leads_close hlen hroom)

/-- R133, R134: a byte other than STX is noise in `Idle`. -/
theorem detectByte_noise (hb : b ≠ Config.stx) : detectByte P .idle c b = discardNoise c b := by
  cases hclass : classify b with
  | stx => exact absurd ((classify_eq_stx b).1 hclass) hb
  | etx | other => simp only [detectByte, hclass]

/-- Noise without an STX is discarded in `Idle`. -/
theorem leads_noise {n : Bytes} (h : Config.stx ∉ n) : Leads P .idle [] n .idle [] [] := by
  induction n with
  | nil => exact leads_nil _ _ _
  | cons b n ih =>
    rw [List.mem_cons, not_or] at h
    have hbyte := leads_byte P .idle [] b
    rw [detectByte_noise (Ne.symm h.1)] at hbyte
    exact hbyte.append (ih h.2)

end Runs

/-- The form of a receivable frame (R223): STX, a body, the checksum byte and ETX, such that everything before the
ETX is a candidate that may be open. -/
structure FrameParts (P : Params) (f body : Bytes) (x : Byte) : Prop where
  bytes : f = Config.stx :: body ++ [x, Config.etx]
  length : 7 ≤ body.length
  isOpen : DetectorInv P .acc (Config.stx :: (body ++ [x]))
  room : P.candMax.hasRoom (body.length + 2) = true
  fold : xorFold (Config.stx :: body) = some x

theorem exists_frameParts {P : Params} {f : Bytes} (h : receivable P f = true) :
    ∃ body x, FrameParts P f body x := by
  obtain ⟨hlen, hmax, hfirst, hlast, hvalid, hstx, hetx⟩ := (receivable_iff P f).1 h
  obtain ⟨g, x, e, hne, rfl⟩ := exists_checked_of_length (Nat.le_trans (by decide) hlen)
  obtain ⟨s, body, rfl⟩ := List.exists_cons_of_ne_nil hne
  obtain rfl : s = Config.stx := by simpa using hfirst
  obtain rfl : e = Config.etx := by simpa using hlast
  have hfold := (validChecksum_append _ x Config.etx hne).1 hvalid
  have hlen' : 7 ≤ body.length := by simpa using hlen
  have hmax' : P.candMax.holds (body.length + 3) = true := by simpa using hmax
  have hstx' : Config.stx ∉ body ++ [x] := by simpa [show Config.stx ≠ Config.etx by decide] using hstx
  have hetx' : Config.etx ∉ (body ++ [x]).drop 8 := by
    have hspan : (Config.stx :: body ++ [x, Config.etx]).take ((Config.stx :: body ++ [x, Config.etx]).length - 1) =
        Config.stx :: (body ++ [x]) := by simp [List.take_append]
    rwa [hspan] at hetx
  have hopen : DetectorInv P .acc (Config.stx :: (body ++ [x])) := .acc hstx' hetx' (holds_mono hmax' (by simp))
  exact ⟨body, x, rfl, hlen', hopen, hasRoom_of_holds hmax' (by omega), hfold⟩

/-- R223: a receivable frame is emitted from everywhere, itself and nothing else. -/
theorem leads_of_receivable {P : Params} {f : Bytes} (h : receivable P f = true) (m : Mode) (c : Bytes) :
    Leads P m c f .idle [] [f] := by
  obtain ⟨body, x, rfl, hlen, hopen, hroom, hfold⟩ := exists_frameParts h
  have hbytes : Config.stx :: (body ++ [x]) ++ [Config.etx] = Config.stx :: body ++ [x, Config.etx] := by simp
  have hvalid : validChecksum (Config.stx :: body ++ [x, Config.etx]) = true :=
    (validChecksum_append _ x Config.etx (List.cons_ne_nil _ _)).2 hfold
  have hrun := leads_closed m c hopen (by simpa using hlen) (by simpa using hroom)
  rwa [hbytes, if_pos hvalid] at hrun

/-- Settles O53: the detector is in `Idle` before each stretch of noise, which it discards, and it emits each frame. -/
theorem twoFramesAmidNoiseAreObtained : Obligations.TwoFramesAmidNoiseAreObtained := by
  intro P n1 f1 n2 f2 h1 h2 hn1 hn2
  exact ((((leads_noise hn1).append (leads_of_receivable h1 _ _)).append (leads_noise hn2)).append
    (leads_of_receivable h2 _ _)).frames

/-! ### A wrong checksum byte (R143 item 2) -/

theorem validChecksum_of_closeOrKeep {c g : Bytes} (h : (closeOrKeep c).emitted = some g) :
    validChecksum g = true := by
  by_cases hshort : (c ++ [Config.etx]).length < 10
  · rw [closeOrKeep_short hshort] at h
    cases h
  · by_cases hvalid : validChecksum (c ++ [Config.etx]) = true
    · rw [closeOrKeep_emits hshort hvalid] at h
      cases h
      exact hvalid
    · rw [closeOrKeep_discards hshort hvalid] at h
      cases h

/-- R138(b): from everywhere only valid sequences are emitted, and on an ETX alone. -/
theorem validChecksum_of_emitted {P : Params} {m : Mode} {c g : Bytes} {b : Byte}
    (h : (detectByte P m c b).emitted = some g) : validChecksum g = true := by
  cases m <;> cases hb : classify b <;> simp only [detectByte, hb] at h
  case acc.etx =>
    split at h
    · exact validChecksum_of_closeOrKeep h
    · cases h
  case acc.other => split at h <;> cases h
  all_goals cases h

theorem validChecksum_of_mem_frames {P : Params} {m : Mode} {c s g : Bytes} (h : g ∈ (runStream P m c s).frames) :
    validChecksum g = true := by
  induction s generalizing m c with
  | nil => cases h
  | cons b s ih =>
    rcases List.mem_append.1 h with hnow | hlater
    · exact validChecksum_of_emitted (Option.mem_toList.1 hnow)
    · exact ih hlater

section

variable {P : Params} {f body : Bytes} {x v : Byte}

theorem FrameParts.checksum_eq (h : FrameParts P f body x) : f[f.length - 2]? = some x := by
  simp [h.bytes]

theorem FrameParts.set_checksum (h : FrameParts P f body x) (v : Byte) :
    f.set (f.length - 2) v = Config.stx :: body ++ [v, Config.etx] := by
  simp [h.bytes]

theorem FrameParts.length_eq (h : FrameParts P f body x) : f.length = body.length + 3 := by
  simp [h.bytes]

/-- R107: the wrong checksum byte is seen. -/
theorem FrameParts.invalid (h : FrameParts P f body x) (hv : v ≠ x) :
    ¬ validChecksum (Config.stx :: body ++ [v, Config.etx]) = true := by
  rw [validChecksum_append _ v Config.etx (List.cons_ne_nil _ _), h.fold, Option.some_inj]
  exact hv.symm

/-- The bytes before the checksum byte are a candidate that may be open. -/
theorem FrameParts.isOpen_before (h : FrameParts P f body x) : DetectorInv P .acc (Config.stx :: body) :=
  (detectorInv_of_append h.isOpen).1

/-- A wrong checksum byte that stays in the candidate has it discarded whole. -/
theorem FrameParts.leads_discarded (h : FrameParts P f body x) (m : Mode) (c : Bytes) (hv : v ≠ x)
    (hstx : v ≠ Config.stx) (hetx : v = Config.etx → body.length < 8) :
    Leads P m c (Config.stx :: body ++ [v, Config.etx]) .idle [] [] := by
  have hbytes : Config.stx :: (body ++ [v]) ++ [Config.etx] = Config.stx :: body ++ [v, Config.etx] := by simp
  obtain ⟨hbody, -, -, hroom⟩ := detectorInv_of_append h.isOpen
  have hopen : DetectorInv P .acc (Config.stx :: (body ++ [v])) := detectorInv_append hbody hstx hetx hroom
  have hrun := leads_closed m c hopen (by simpa using h.length) (by simpa using h.room)
  rwa [hbytes, if_neg (h.invalid hv)] at hrun

/-- An STX in the checksum's place opens a candidate that the frame's ETX leaves open. -/
theorem FrameParts.leads_resynchronised (h : FrameParts P f body x) (m : Mode) (c : Bytes) :
    Leads P m c (Config.stx :: body ++ [Config.stx, Config.etx]) .acc [Config.stx, Config.etx] [] := by
  have hcap : P.candMax.holds 2 = true := holds_mono (hasRoom_holds h.room) (by omega)
  have hopen : DetectorInv P .acc [Config.stx, Config.etx] := .acc (by decide) (by decide) hcap
  exact (leads_open m c h.isOpen_before).append (leads_open _ _ hopen)

/-- An ETX in the checksum's place closes a longer candidate, whose last byte but one is then its checksum byte: it is
the right one exactly when the frame's fold was zero (R108). The frame's own ETX is noise. -/
theorem FrameParts.leads_closed_early (h : FrameParts P f body x) (m : Mode) (c : Bytes) (hlen : 8 ≤ body.length) :
    Leads P m c (Config.stx :: body ++ [Config.etx, Config.etx]) .idle []
      (if x = 0x00#8 then [Config.stx :: body ++ [Config.etx]] else []) := by
  have hroom : P.candMax.hasRoom (body.length + 1) = true := (detectorInv_of_append h.isOpen).2.2.2
  have hvalid : validChecksum (Config.stx :: body ++ [Config.etx]) = true ↔ x = 0x00#8 := by
    have hspan : (Config.stx :: body ++ [Config.etx]).take ((Config.stx :: body ++ [Config.etx]).length - 1) =
        Config.stx :: body := by simp
    rw [validChecksum_iff_fold_zero (by simp; omega), hspan, h.fold, Option.some_inj]
  have hrun := (leads_closed m c h.isOpen_before hlen hroom).append
    (leads_noise (n := [Config.etx]) (by decide))
  simpa only [hvalid, List.append_nil, List.append_assoc, List.singleton_append] using hrun

end

/-- Settles O54: what is emitted is valid, and the changed frame is not; the cases are those of the byte that stands in
the checksum's place. -/
theorem aCorruptedChecksumIsNeverDelivered : Obligations.ACorruptedChecksumIsNeverDelivered := by
  intro P m cand f x v hf hx hv
  obtain ⟨body, x', h⟩ := exists_frameParts hf
  obtain rfl : x' = x := Option.some.inj (h.checksum_eq.symm.trans hx)
  have hlen := h.length_eq
  rw [h.set_checksum]
  refine ⟨fun hmem => h.invalid hv (validChecksum_of_mem_frames hmem), fun hkept => ?_, ?_, ?_⟩
  · have hstx : v ≠ Config.stx := by
      rcases hkept with hother | ⟨rfl, -⟩
      · exact ((classify_eq_other v).1 hother).1
      · decide
    have hetx : v = Config.etx → body.length < 8 := by
      rintro rfl
      have hten : f.length = 10 := by simpa using hkept
      omega
    obtain ⟨hmode, hcand, hframes⟩ := h.leads_discarded m cand hv hstx hetx
    exact ⟨hframes, hmode, hcand⟩
  · rintro rfl
    obtain ⟨hmode, hcand, hframes⟩ := h.leads_resynchronised m cand
    exact ⟨hframes, hmode, hcand⟩
  · rintro rfl hlong
    obtain ⟨hmode, hcand, hframes⟩ := h.leads_closed_early m cand (by omega)
    have htake : f.take (f.length - 2) = Config.stx :: body := by simp [h.bytes]
    rw [htake]
    exact ⟨hframes, hmode, hcand⟩

end Sys2Proof.Machine

/-! ## The host's operations (R160 to R162) -/

namespace Sys2Proof

/-- R28: a store has reached its capacity when the capacity is finite and equals its length. -/
theorem isReached_iff (c : Capacity) (k : Nat) : c.isReached k = true ↔ c = .atMost k := by
  cases c with
  | unbounded => simp [Capacity.isReached]
  | atMost n => simp [Capacity.isReached, eq_comm]

end Sys2Proof

namespace Sys2Proof.Machine

section

variable {s : State}

theorem exec_take_of_frame {f : Bytes} (h : s.fcr.out = some f) :
    exec .take s = .next ((s.withFcr { s.fcr with out := none }).answer (.frame f)) := by
  simp only [exec, execTake, h]

theorem exec_take_of_none (h : s.fcr.out = none) : exec .take s = .next (s.answer .noFrame) := by
  simp only [exec, execTake, h]

end

/-- Settles O28: once the slot is empty, a byte that waits is a symbol the detector can step on. -/
theorem takeReturnsTheFrameOnce : Obligations.TakeReturnsTheFrameOnce := by
  refine ⟨fun s f hout => ⟨_, exec_take_of_frame hout, rfl, rfl, rfl, fun hbuf => ?_⟩,
    fun s hout => exec_take_of_none hout⟩
  obtain ⟨b, rest, hb⟩ := List.exists_cons_of_ne_nil hbuf
  exact ⟨_, detectorWord_of_head rfl hb⟩

section

variable (P : Params) (f : Fcr)

/-! ### Each flag, as R28 defines it -/

theorem flags_frameValid_iff : (f.flags P).frameValid = true ↔ f.out ≠ none := Option.isSome_iff_ne_none

theorem flags_frameLen_of_frame {g : Bytes} (h : f.out = some g) : (f.flags P).frameLen = g.length := by
  simp only [Fcr.flags, Fcr.frameLen, h]

theorem flags_frameLen_of_none (h : f.out = none) : (f.flags P).frameLen = 0 := by
  simp only [Fcr.flags, Fcr.frameLen, h]

theorem flags_bufEmpty_iff : (f.flags P).bufEmpty = true ↔ f.buf = [] := List.isEmpty_iff

theorem flags_bufFull_iff : (f.flags P).bufFull = true ↔ P.bufDepth = .atMost f.buf.length := isReached_iff _ _

theorem flags_accumulating_iff : (f.flags P).accumulating = true ↔ f.mode = .acc := beq_iff_eq

end

/-- Settles O29: STATUS answers the flags, each of which is as R28 says. -/
theorem statusReturnsTheFiveFlags : Obligations.StatusReturnsTheFiveFlags :=
  fun s => ⟨s.fcr.flags s.params, rfl, flags_frameValid_iff _ _, fun _ => flags_frameLen_of_frame _ _,
    flags_frameLen_of_none _ _, flags_bufEmpty_iff _ _, flags_bufFull_iff _ _, flags_accumulating_iff _ _⟩

/-- Settles O30: RESET writes the stores R32 lists, by definition. -/
theorem resetOperationEmptiesTheStores : Obligations.ResetOperationEmptiesTheStores := fun _ => ⟨rfl, rfl⟩

end Sys2Proof.Machine

/-! ## The host's wait for a frame (R163 to R165) -/

namespace Sys2Proof.Machine

section

variable {s : State} {polls : Nat} {rest : List Request}

/-- R163: each iteration of GETFRAME is a TAKE. -/
theorem step_of_getFrame (hturn : turn s = .host) (hreq : s.env.requests = .getFrame polls :: rest) :
    step s = exec .take (advance s) := by
  have hw : fetchWord s = some (.cmd4 0x4#4 []) := by
    simp only [fetchWord, hturn, hostWord, hreq, Request.encoded]
  exact step_of_decoded hw rfl

/-- R163, R164: a frame ends the wait, whatever polls are left. -/
theorem advance_of_getFrame_frame {f : Bytes} (hturn : turn s = .host)
    (hreq : s.env.requests = .getFrame polls :: rest) (hout : s.fcr.out = some f) :
    advance s = s.withEnv { s.env with
      requests := rest, waits := s.env.waits ++ [.frame f], schedule := s.env.schedule.tail } := by
  simp only [advance, envAfter, hturn, requestsAfter, waitEnding, hreq, hout]

/-- R164, R165: with no frame and no poll left the wait ends. -/
theorem advance_of_getFrame_expired (hturn : turn s = .host) (hreq : s.env.requests = .getFrame 0 :: rest)
    (hout : s.fcr.out = none) :
    advance s = s.withEnv { s.env with
      requests := rest, waits := s.env.waits ++ [.timeout], schedule := s.env.schedule.tail } := by
  simp only [advance, envAfter, hturn, requestsAfter, waitEnding, hreq, hout]

/-- R163: with no frame and a poll left the host polls again. -/
theorem advance_of_getFrame_again (hturn : turn s = .host) (hreq : s.env.requests = .getFrame (polls + 1) :: rest)
    (hout : s.fcr.out = none) :
    advance s = s.withEnv { s.env with
      requests := .getFrame polls :: rest, schedule := s.env.schedule.tail } := by
  simp only [advance, envAfter, hturn, requestsAfter, waitEnding, hreq, hout, List.append_nil]

end

/-- Settles O60: the turn is a TAKE, run once the environment has moved on in the one of three ways that the slot and the
polls select. -/
theorem getFrameReturnsTheFrameOrTimesOut : Obligations.GetFrameReturnsTheFrameOrTimesOut := by
  intro s polls rest hturn hreq
  have hstep := step_of_getFrame hturn hreq
  refine ⟨fun f hout => ?_, fun hout hpolls => ?_, fun n hout hpolls => ?_⟩
  · rw [hstep, exec_take_of_frame (s := advance s) hout, advance_of_getFrame_frame hturn hreq hout]
    rfl
  · subst hpolls
    rw [hstep, exec_take_of_none (s := advance s) hout, advance_of_getFrame_expired hturn hreq hout]
    rfl
  · subst hpolls
    rw [hstep, exec_take_of_none (s := advance s) hout, advance_of_getFrame_again hturn hreq hout]
    rfl

end Sys2Proof.Machine

/-! ## How a step runs, and how it can stop (R189, R192, R194) -/

namespace Sys2Proof.Machine

/-- Settles O42: what `exec` can do is always a next state. -/
theorem everyOperationAnswersANextState : Obligations.EveryOperationAnswersANextState := by
  intro i s
  obtain ⟨t, hexec, -⟩ := exec_effect i s
  exact ⟨t, hexec⟩

/-- Settles O41: the two branches of `step` that go on, with what the environment's move leaves as it was. -/
theorem stepRunsTheDecodedOperation : Obligations.StepRunsTheDecodedOperation :=
  ⟨fun s _ _ hw hd => ⟨step_of_decoded hw hd, advance_fcr s, advance_params s, advance_events s, advance_results s,
    advance_schedule s⟩, fun _ => step_of_fetchWord_none⟩

section

variable {s : State}

/-- Operations complete, so a step is refused by the decoder alone. -/
theorem undecodable_of_step_refused {r : Refusal} (h : step s = .refused r) :
    ∃ w e, fetchWord s = some w ∧ decode w = .error e ∧ r = .undecodable e := by
  unfold step at h
  split at h
  case h_1 => cases h
  case h_2 w hw =>
    split at h
    case h_1 i hd =>
      obtain ⟨t, hexec⟩ := everyOperationAnswersANextState i (advance s)
      rw [hexec] at h
      cases h
    case h_2 e hd =>
      cases h
      exact ⟨w, e, hw, hd, rfl⟩

/-- The host's channel carries its next request. -/
theorem hostWord_eq_some {w : Encoded} (h : hostWord s = some w) :
    ∃ q rest, s.env.requests = q :: rest ∧ w = q.encoded := by
  unfold hostWord at h
  split at h
  case h_1 q rest hreq =>
    cases h
    exact ⟨q, rest, hreq, rfl⟩
  case h_2 => cases h

/-- Every symbol and every ingress byte decodes (R75, R130), and so does RESET's code, so what does not decode is the
host's. -/
theorem host_of_fetched_undecodable {w : Encoded} {e : DecodeError} (hw : fetchWord s = some w)
    (hd : decode w = .error e) : turn s = .host ∧ hostWord s = some w := by
  unfold fetchWord at hw
  split at hw
  case h_1 =>
    obtain ⟨b, -, rfl⟩ := sourceWord_eq_some hw
    cases hd
  case h_2 =>
    obtain ⟨b, rest, -, -, rfl⟩ := detectorWord_eq_some hw
    cases hd
  case h_3 hturn => exact ⟨hturn, hw⟩
  case h_4 =>
    cases hw
    cases hd

end

/-- Settles O43: there is no fault to answer, and a refusal comes from an undecodable word, which only the host can
offer. -/
theorem onlyUndecodableRequestsStopAStep : Obligations.OnlyUndecodableRequestsStopAStep := by
  refine ⟨fun _ r => (nomatch r), fun s r h => ?_⟩
  obtain ⟨w, e, hw, hd, rfl⟩ := undecodable_of_step_refused h
  obtain ⟨hturn, hhost⟩ := host_of_fetched_undecodable hw hd
  obtain ⟨q, rest, hreq, rfl⟩ := hostWord_eq_some hhost
  exact ⟨hturn, q, rest, e, hreq, hd, rfl⟩

end Sys2Proof.Machine

/-! ## No operation reads the records or the environment (R33, R196)

A state is its bare block under an environment and records. An operation run on the bare block alone, with these
put back around the answer, does what it does on the whole state; and two states with the same parameters and the
same block have the same bare block. -/

namespace Sys2Proof.Machine

/-- The block and its parameters, with nothing recorded and nothing in the environment. -/
def State.bare (s : State) : State := ⟨s.params, s.fcr, Env.quiet, [], []⟩

/-- The block of `t` in the environment of `s`, with the records of `t` added to those of `s`. -/
def State.around (s t : State) : State := ⟨t.params, t.fcr, s.env, s.events ++ t.events, s.results ++ t.results⟩

section

variable (s t : State)

@[simp] theorem bare_fcr : s.bare.fcr = s.fcr := rfl

@[simp] theorem around_bare : s.around s.bare = s := by simp [State.around, State.bare]

@[simp] theorem around_withFcr (f : Fcr) : s.around (t.withFcr f) = (s.around t).withFcr f := rfl

@[simp] theorem around_output (ev : Event) : s.around (t.output ev) = (s.around t).output ev := by
  simp [State.around, State.output]

@[simp] theorem around_answer (r : Result) : s.around (t.answer r) = (s.around t).answer r := by
  simp [State.around, State.answer]

end

/-- The outcome `whole`, of a state `s`, is the outcome `alone`, of its bare block, put back around. -/
def Replays (s : State) (alone whole : Host.Outcome State Fault Refusal) : Prop :=
  ∃ t, alone = .next t ∧ whole = .next (s.around t)

section

variable (s : State)

theorem replays_self : Replays s (.next s.bare) (.next s) := ⟨_, rfl, by simp⟩

theorem replays_withFcr (f : Fcr) : Replays s (.next (s.bare.withFcr f)) (.next (s.withFcr f)) :=
  ⟨_, rfl, by simp⟩

theorem replays_answer (r : Result) : Replays s (.next (s.bare.answer r)) (.next (s.answer r)) :=
  ⟨_, rfl, by simp⟩

theorem replays_deliver (r : Except ErrorKind Bytes) : Replays s (.next (deliver s.bare r)) (.next (deliver s r)) := by
  cases r <;> exact replays_answer s _

theorem replays_detectorStep (mode : Mode) (b : Byte) (cond : Bool) (mv : Move) :
    Replays s (detectorStep s.bare mode b cond mv) (detectorStep s mode b cond mv) := by
  unfold detectorStep
  rw [bare_fcr]
  split
  case h_1 =>
    split_ifs
    · exact ⟨_, rfl, by simp [State.moved]⟩
    · exact replays_self s
  case h_2 => exact replays_self s

/-- R33, R196: an operation does on a state what it does on the bare block. -/
theorem exec_replays (i : Instr) : Replays s (exec i s.bare) (exec i s) := by
  cases i with
  | stepIdleStx | stepIdleEtx | stepIdleOther | stepAccStx | stepAccEtx | stepAccOther | stepAccOverrun =>
    exact replays_detectorStep s _ _ _ _
  | push b =>
    cases h : canPush s with
    | true =>
      rw [exec_push_of_canPush h, exec_push_of_canPush (s := s.bare) h]
      exact replays_withFcr s _
    | false =>
      rw [exec_push_of_full h, exec_push_of_full (s := s.bare) h]
      exact replays_self s
  | checksum bytes extra => cases bytes <;> exact replays_answer s _
  | compose | frame | ackFrame => exact replays_deliver s _
  | take =>
    cases h : s.fcr.out with
    | some f =>
      rw [exec_take_of_frame h, exec_take_of_frame (s := s.bare) h]
      exact ⟨_, rfl, by simp⟩
    | none =>
      rw [exec_take_of_none h, exec_take_of_none (s := s.bare) h]
      exact replays_answer s _
  | isvalid | status | cmd4Reserved | syncFrame => exact replays_answer s _
  | reset => exact replays_withFcr s _

end

/-- States with the same parameters and the same block have the same bare block. -/
theorem bare_eq_bare {s s' : State} (hparams : s.params = s'.params) (hfcr : s.fcr = s'.fcr) : s.bare = s'.bare := by
  rw [State.bare, State.bare, hparams, hfcr]

/-- Settles O45: both runs are the bare block's run, with each state's own environment and records put around it. -/
theorem recordsAndEnvironmentAreNeverRead : Obligations.RecordsAndEnvironmentAreNeverRead := by
  intro i s s' t t' hparams hfcr hs hs'
  obtain ⟨u, halone, hwhole⟩ := exec_replays s i
  obtain ⟨u', halone', hwhole'⟩ := exec_replays s' i
  rw [bare_eq_bare hparams hfcr, halone'] at halone
  cases halone
  cases hs.symm.trans hwhole
  cases hs'.symm.trans hwhole'
  exact ⟨rfl, u.events, u.results, rfl, rfl, rfl, rfl⟩

end Sys2Proof.Machine

/-! ## What the detector emits (R223) -/

namespace Sys2Proof.Machine

/-- Settles O51: before its last byte a receivable frame is a candidate that is still open. -/
theorem receivableFramesAreDelivered : Obligations.ReceivableFramesAreDelivered := by
  intro P f hf
  refine ⟨(leads_of_receivable hf .idle []).frames, fun m c => ?_⟩
  obtain ⟨hmode, hcand, hframes⟩ := leads_of_receivable hf m c
  obtain ⟨body, x, h⟩ := exists_frameParts hf
  have hbefore : f.take (f.length - 1) = Config.stx :: (body ++ [x]) := by simp [h.bytes, List.take_append]
  rw [hbefore]
  exact ⟨hframes, hmode, hcand, (leads_open m c h.isOpen).frames⟩

/-- Parameters under which no candidate is ever full. -/
def unboundedParams : Params := ⟨.unbounded, .unbounded, true⟩

section

variable {P : Params} {m : Mode} {c g s : Bytes} {b : Byte}

/-- Only the first condition of R223 speaks of `CAND_MAX`. -/
theorem receivable_of_unbounded (h : receivable unboundedParams g = true) (hmax : P.candMax.holds g.length = true) :
    receivable P g = true := by
  obtain ⟨hlen, -, hrest⟩ := (receivable_iff _ g).1 h
  exact (receivable_iff P g).2 ⟨hlen, hmax, hrest⟩

/-- R139: all that a bound on the candidate does is to drop it. -/
theorem detectByte_eq_unbounded_or_overrun (P : Params) (m : Mode) (c : Bytes) (b : Byte) :
    detectByte P m c b = detectByte unboundedParams m c b ∨ detectByte P m c b = overrun c b := by
  cases m with
  | idle =>
    left
    cases hb : classify b <;> simp only [detectByte, hb]
  | acc =>
    by_cases hroom : P.candMax.hasRoom c.length = true
    · have hfree : unboundedParams.candMax.hasRoom c.length = true := rfl
      left
      simp only [detectByte, hroom, hfree]
    · cases hb : classify b
      case stx =>
        left
        simp only [detectByte, hb]
      case etx | other =>
        right
        simp only [detectByte, hb]
        exact if_neg hroom

theorem eq_concat_of_closeOrKeep (h : (closeOrKeep c).emitted = some g) : g = c ++ [Config.etx] := by
  by_cases hshort : (c ++ [Config.etx]).length < 10
  · rw [closeOrKeep_short hshort] at h
    cases h
  · by_cases hvalid : validChecksum (c ++ [Config.etx]) = true
    · rw [closeOrKeep_emits hshort hvalid] at h
      exact (Option.some.inj h).symm
    · rw [closeOrKeep_discards hshort hvalid] at h
      cases h

/-- R138, R139: what is emitted is within `CAND_MAX`, its ETX included. -/
theorem candMax_holds_of_emitted (h : (detectByte P m c b).emitted = some g) : P.candMax.holds g.length = true := by
  cases m <;> cases hb : classify b <;> simp only [detectByte, hb] at h
  case acc.etx =>
    split at h
    case isTrue hroom =>
      rw [eq_concat_of_closeOrKeep h, List.length_append]
      exact hasRoom_holds hroom
    case isFalse => cases h
  case acc.other => split at h <;> cases h
  all_goals cases h

/-- Items 1 to 4 of R25 hold along the stream whatever the parameters are, legal or not. -/
theorem detectByte_sound_unbounded (h : DetectorInv unboundedParams m c) (P : Params) (b : Byte) :
    (detectByte P m c b).Sound unboundedParams := by
  rcases detectByte_eq_unbounded_or_overrun P m c b with heq | heq <;> rw [heq]
  · exact detectByte_sound rfl h b
  · exact .of_silent .idle

theorem receivable_of_mem_frames (h : DetectorInv unboundedParams m c) (hg : g ∈ (runStream P m c s).frames) :
    receivable P g = true := by
  induction s generalizing m c with
  | nil => cases hg
  | cons b s ih =>
    obtain ⟨hinv, hemit⟩ := detectByte_sound_unbounded h P b
    rcases List.mem_append.1 hg with hnow | hlater
    · have hemitted := Option.mem_toList.1 hnow
      exact receivable_of_unbounded (hemit g hemitted) (candMax_holds_of_emitted hemitted)
    · exact ih hinv hlater

end

/-- Settles O52: no candidate is open before the first byte. -/
theorem onlyReceivableFramesAreEmitted : Obligations.OnlyReceivableFramesAreEmitted :=
  fun _ _ _ => receivable_of_mem_frames .idle

end Sys2Proof.Machine

/-! ## Which composed frames are receivable (R103, R223) -/

namespace Sys2Proof

theorem not_mem_drop_iff {a : Byte} {l : Bytes} {n : Nat} : a ∉ l.drop n ↔ ∀ i, n ≤ i → l[i]? ≠ some a := by
  simp only [List.mem_iff_getElem?, List.getElem?_drop, not_exists]
  refine ⟨fun h i hi => ?_, fun h j => h _ (Nat.le_add_right n j)⟩
  obtain ⟨j, rfl⟩ := Nat.exists_eq_add_of_le hi
  exact h j

/-- R223 condition 5 on data and checksum, whose first byte is at offset 8. -/
theorem not_mem_drop_one_concat (a chk : Byte) (data : Bytes) :
    a ∉ (data ++ [chk]).drop 1 ↔ (∀ i, 1 ≤ i → data[i]? ≠ some a) ∧ (chk = a → data = []) := by
  have hchk : a ∉ [chk].drop (1 - data.length) ↔ (chk = a → data = []) := by
    cases data <;> simp [eq_comm]
  rw [List.drop_append, List.mem_append, not_or, not_mem_drop_iff, hchk]

/-- R223 on what starts with STX and ends with ETX, in terms of the bytes between. -/
theorem receivable_delimited_iff {P : Params} {body : Bytes} :
    receivable P (Config.stx :: body ++ [Config.etx]) = true ↔
      8 ≤ body.length ∧ P.candMax.holds (body.length + 2) = true ∧
        validChecksum (Config.stx :: body ++ [Config.etx]) = true ∧
        Config.stx ∉ body ∧ Config.etx ∉ body.drop 8 := by
  have hne : Config.stx ≠ Config.etx := by decide
  have hspan : (Config.stx :: body ++ [Config.etx]).take ((Config.stx :: body ++ [Config.etx]).length - 1) =
      Config.stx :: body := by simp
  rw [receivable_iff, hspan]
  simp [hne]

/-- R223 on a frame of R70 that fits: conditions 1 to 3 hold, 4 and 5 are about the bytes that vary. -/
theorem receivable_frameBytes_iff {P : Params} {p0 p1 f0 f1 chk : Byte} {data : Bytes}
    (hmax : P.candMax.holds (data.length + 10) = true)
    (hchk : xorFold ([Config.stx, Config.version, p0, p1, f0, f1, hi data.length, lo data.length] ++ data) = some chk) :
    receivable P (frameBytes [p0, p1] [f0, f1] data) = true ↔
      Config.stx ∉ [p0, p1, f0, f1, hi data.length, lo data.length] ++ data ++ [chk] ∧
        Config.etx ∉ (data ++ [chk]).drop 1 := by
  have hvalid := validChecksum_frameBytes [p0, p1] [f0, f1] data
  have hbytes : frameBytes [p0, p1] [f0, f1] data = Config.stx ::
      (Config.version :: ([p0, p1, f0, f1, hi data.length, lo data.length] ++ data ++ [chk])) ++ [Config.etx] := by
    rw [frameBytes_fields, ← Option.some.inj hchk]
    simp
  have hne : Config.stx ≠ Config.version := by decide
  rw [hbytes] at hvalid ⊢
  rw [receivable_delimited_iff, and_iff_right (by simp), and_iff_right (by simpa using hmax), and_iff_right hvalid,
    List.mem_cons, not_or, and_iff_right hne]
  rfl

end Sys2Proof

namespace Sys2Proof.Machine

/-- Settles O55: what is left of R223 for a composed frame, its fifth condition told apart into data and checksum. -/
theorem composedFramesReceivableByTheirBytes : Obligations.ComposedFramesReceivableByTheirBytes := by
  intro P p0 p1 f0 f1 chk data _ hmax hchk
  rw [receivable_frameBytes_iff hmax hchk, not_mem_drop_one_concat]
  rfl

end Sys2Proof.Machine

/-! ## The hardware's reset input (R210) -/

namespace Sys2Proof.Machine

section

variable {s : State}

/-- R210: the reset input issues RESET. -/
theorem step_of_resetInput (hturn : turn s = .resetInput) : step s = exec .reset (advance s) := by
  have hw : fetchWord s = some (.cmd4 0x6#4 []) := by simp only [fetchWord, hturn]
  exact step_of_decoded hw rfl

theorem advance_of_resetInput (hturn : turn s = .resetInput) :
    advance s = s.withEnv { s.env with schedule := s.env.schedule.tail } := by
  simp only [advance, envAfter, hturn]

end

/-- Settles O31: only the turn is gone before RESET empties the stores. -/
theorem resetInputActsAsReset : Obligations.ResetInputActsAsReset := by
  intro s hturn
  obtain ⟨hreset, -⟩ := resetOperationEmptiesTheStores (advance s)
  rw [step_of_resetInput hturn, hreset, advance_of_resetInput hturn]
  rfl

end Sys2Proof.Machine
